-- ==== Sys2Proof/Word.lean ====
section
/-!
DEFINITION. The word type (spec/00_scope.md R7): a word of `n` bits is a `BitVec n`, bit 0 its least
significant bit. `to_unsigned` (R9) is `BitVec.toNat` and `to_int` (R10) is `BitVec.toInt`, the two's
complement reading of the whole word. The primitives that can fail or that follow a policy stand in
Machine/Bits.lean.
-/

namespace Sys2Proof

/-- A word of the default machine `Baby32`, whose word length `W` is 32 (00_scope.md R6). -/
abbrev Word := BitVec 32

end Sys2Proof
end

