-- ==== Sys2Proof/Syntax.lean ====
section
/-!
DEFINITION. The mnemonics and the instructions (spec/00_scope.md R1, 30_encoding.md R63, R64).
-/

namespace Sys2Proof

/-- The closed set of seven mnemonics and the assembler's pseudo-operation NUM (00_scope.md R1). -/
inductive Mnemonic where
  | jmp | jrp | ldn | sto | sub | cmp | stp
  /-- Raw data, not executable (44_stop_and_data.md R141). -/
  | num
deriving DecidableEq, Repr

/-- A decoded instruction: a mnemonic with the raw unsigned address field `S` (30_encoding.md R65, R72).
SUB has one constructor for its two opcode patterns, because after decoding nothing remembers which
pattern was seen (R64; log entry 9). CMP and STP carry the field too: execution ignores it, the
descriptor `last` records it (10_state.md R25). -/
inductive Instr where
  /-- JMP S: absolute indirect jump (R110). -/
  | jmp (S : Nat)
  /-- JRP S: relative indirect jump (R111). -/
  | jrp (S : Nat)
  /-- LDN S: load negated (R120). -/
  | ldn (S : Nat)
  /-- STO S: store the accumulator (R121). -/
  | sto (S : Nat)
  /-- SUB S: subtract from the accumulator, patterns `001` and `101` (R130). -/
  | sub (S : Nat)
  /-- CMP: skip the next instruction if A is negative (R112); the field is ignored. -/
  | cmp (S : Nat)
  /-- STP: stop (R140); the field is ignored. -/
  | stp (S : Nat)
deriving DecidableEq, Repr

/-- The mnemonic of an instruction. -/
def Instr.mnemonic : Instr → Mnemonic
  | .jmp _ => .jmp
  | .jrp _ => .jrp
  | .ldn _ => .ldn
  | .sto _ => .sto
  | .sub _ => .sub
  | .cmp _ => .cmp
  | .stp _ => .stp

/-- The raw address field of an instruction (30_encoding.md R72). -/
def Instr.operand : Instr → Nat
  | .jmp S => S
  | .jrp S => S
  | .ldn S => S
  | .sto S => S
  | .sub S => S
  | .cmp S => S
  | .stp S => S

/-- The instruction of a decoded pair; NUM names no instruction (44_stop_and_data.md R141). -/
def Instr.ofPair? : Mnemonic → Nat → Option Instr
  | .jmp, S => some (.jmp S)
  | .jrp, S => some (.jrp S)
  | .ldn, S => some (.ldn S)
  | .sto, S => some (.sto S)
  | .sub, S => some (.sub S)
  | .cmp, S => some (.cmp S)
  | .stp, S => some (.stp S)
  | .num, _ => none

end Sys2Proof
end

