-- ==== Sys2Proof/Config.lean ====
section
/-!
DEFINITION. What an implementation fixes: the MachineModel (spec/00_scope.md R4 to R6), the overflow
policy (R12, 43_arithmetic.md R132), the default instance `Baby32`, and the values the spec leaves to
the host. None of this is state (10_state.md R29).
-/

namespace Sys2Proof

/-- What `from_int` does with an integer outside the signed range (00_scope.md R12, 43_arithmetic.md
R132; 92_eei_decisions.md D1). -/
inductive OverflowPolicy where
  | wrap | saturate | reject
deriving DecidableEq, Repr

/-- A machine variant with word length `W` (00_scope.md R4): the store size, the two fields, the opcode
table and the assembler's two sets, with the open parameter `overflow` of R132. A key of `optable` has
length `opLen` by its type. -/
structure MachineModel (W : Nat) where
  /-- `N`, the number of words in the store. -/
  wordCount : Nat
  addrStart : Nat
  addrLen : Nat
  opStart : Nat
  opLen : Nat
  /-- Opcode pattern to mnemonic; may be many-to-one, may be partial. -/
  optable : List (BitVec opLen × Mnemonic)
  /-- The mnemonics that carry an operand in assembly text. -/
  needsOperand : List Mnemonic
  /-- The mnemonics whose operand must lie in `[0, N)` at assembly. -/
  addrTyped : List Mnemonic
  /-- The policy for an out-of-range `from_int`. -/
  overflow : OverflowPolicy := .wrap

namespace Config

/-- The default instance `Baby32` (00_scope.md R6; opcode table 30_encoding.md R63). The numeric pattern
is `F`, whose bit 0 is the first character of the pattern as the spec writes it: `001` is 4. SUB's
canonical pattern `001` stands before its alias `101` (R68). -/
def baby32 : MachineModel 32 where
  wordCount := 32
  addrStart := 0
  addrLen := 5
  opStart := 13
  opLen := 3
  optable :=
    [(0#3, .jmp), (1#3, .jrp), (2#3, .ldn), (3#3, .sto),
     (4#3, .sub), (5#3, .sub), (6#3, .cmp), (7#3, .stp)]
  needsOperand := [.jmp, .jrp, .ldn, .sto, .sub, .num]
  addrTyped := [.jmp, .jrp, .ldn, .sto, .sub]
  overflow := .wrap

/-- `speed0`, the control input `speed` right after reset: the spec says only an unspecified positive
value (10_state.md R32). DESIGN CHOICE 1, unsafe (log entry 4); no rule reads `speed`. -/
def speed0 : Rat := 1

/-- The glyph of a clear bit: one of "two fixed glyphs" the source does not name (00_scope.md R18, U10).
A free constant (log entry 14). -/
opaque clearGlyph : Char

/-- The glyph of a set bit (00_scope.md R18, U10). A free constant (log entry 14). -/
opaque setGlyph : Char

/-- `from_unsigned(y, n)` for `y` outside `[0, 2^n)`: the spec defines it inside that range only (00_scope.md
R13, 91_not_in_source.md N6). A free value (log entry 18). -/
opaque unsignedOutside (y n : Nat) : BitVec n

end Config
end Sys2Proof
end

