-- ==== Sys2Proof/Machine/Errors.lean ====
section
/-!
DEFINITION. The error codes: those a cycle can raise (spec/60_exceptions.md R150) and those of the
host's loader (30_encoding.md R80).
-/

namespace Sys2Proof

/-- The symbolic codes of 60_exceptions.md R150, each with its recorded information. -/
inductive EngineError where
  /-- Step 3: the opcode pattern, index 0 first, is no key of `optable` (R151). -/
  | decodeError (pattern : List Bool)
  /-- Step 4: the operand names no store word (R152). -/
  | boundsError (address : Nat)
  /-- `slice`, `engrave` or `decode`: the bit range exceeds the word (R153). -/
  | rangeError (start : Int) (length : Nat)
  /-- `MemWrite` of a word whose length is not `W` (R154). -/
  | lengthError
  /-- Step 4 under the reject policy: the exact integer does not fit (R155). -/
  | overflowError (exact : Int)
  /-- Step 4: the decoder returned NUM (R156). -/
  | undefinedNum
deriving DecidableEq, Repr

/-- The load errors of 30_encoding.md R80; they never occur while the engine runs (60_exceptions.md R168). -/
inductive LoadError where
  /-- The address is no decimal number or not the running count (R75). -/
  | malformedAddress
  | unknownMnemonic
  | missingOperand
  | invalidOperand
  /-- An address-typed operand outside `[0, N)` (R76). -/
  | operandNotStoreAddress
  /-- "word too large to place at a field" (R66), or a NUM operand rejected by the policy (U1 d). -/
  | wordTooLarge
  /-- A field of the encoding lies outside the word; excluded by 00_scope.md R5. -/
  | fieldOutsideWord
  /-- The running counter exceeds `word_count` (R76). -/
  | tooManyLines
  /-- A binary dump's bit string is not `W` characters `0` and `1` (R78). -/
  | malformedBitString
  /-- `detect_format` answered Unknown (R77). -/
  | unrecognizedFormat
deriving DecidableEq, Repr

end Sys2Proof
end

