-- ==== Sys2Proof/Machine/Bits.lean ====
section
/-!
DEFINITION. The primitives of the word (spec/00_scope.md R8, R11 to R18). A word of length `n` is a
`BitVec n`; its two readings (R9, R10) are `BitVec.toNat` and `BitVec.toInt`.
-/

namespace Sys2Proof.Machine

/-- `zero(n)` (R8). -/
def zeroWord (n : Nat) : BitVec n := 0#n

/-- The least signed value of `n` bits, `MIN_W` for `n = W`. -/
def minSigned (n : Nat) : Int := -2 ^ (n - 1)

/-- The greatest signed value of `n` bits, `MAX_W` for `n = W`. -/
def maxSigned (n : Nat) : Int := 2 ^ (n - 1) - 1

/-- `x` lies in the defined range of `from_int(x, n)` (R11). -/
abbrev FitsSigned (x : Int) (n : Nat) : Prop := minSigned n ≤ x ∧ x ≤ maxSigned n

/-- The word whose bit `i` is `floor(x / 2^i) mod 2`: `from_int` inside the range (R11) and everywhere
under the wrap policy (R12). -/
def wrapInt (x : Int) (n : Nat) : BitVec n := BitVec.ofInt n x

/-- `from_int(x, n)` under a policy (R11, R12; 43_arithmetic.md R132): exact inside the signed range;
outside it wrap, saturate or reject. -/
def fromInt (policy : OverflowPolicy) (x : Int) (n : Nat) : Except EngineError (BitVec n) :=
  if FitsSigned x n then .ok (wrapInt x n)
  else
    match policy with
    | .wrap => .ok (wrapInt x n)
    | .saturate => .ok (wrapInt (if x < minSigned n then minSigned n else maxSigned n) n)
    | .reject => .error (.overflowError x)

/-- `from_unsigned(y, n)` (R13), defined by the spec for `y` in `[0, 2^n)`; outside, a free value (log
entry 18). -/
def fromUnsigned (y : Nat) (n : Nat) : BitVec n :=
  if y < 2 ^ n then BitVec.ofNat n y else Config.unsignedOutside y n

/-- `from_bits(seq)`: element `k` becomes bit `k` (R14). -/
def fromBits (bits : List Bool) : BitVec bits.length := BitVec.ofBoolListLE bits

/-- One character of a bit string: `0` is a clear bit, `1` a set bit (R14). -/
def bitOfChar : Char → Option Bool
  | '0' => some false
  | '1' => some true
  | _ => none

/-- The bits of a text, or none if a character is no bit. -/
def bitsOfText : List Char → Option (List Bool)
  | [] => some []
  | c :: cs =>
    match bitOfChar c, bitsOfText cs with
    | some b, some bs => some (b :: bs)
    | _, _ => none

/-- `from_string(text)` where a word of length `n` is wanted: character `k` is bit `k` (R14), and the
length must be exactly `n` (30_encoding.md R78). -/
def fromString (text : List Char) (n : Nat) : Option (BitVec n) :=
  match bitsOfText text with
  | none => none
  | some bs => if h : bs.length = n then some ((fromBits bs).cast h) else none

/-- The bits of a word, index 0 first. -/
def bitList {n : Nat} (w : BitVec n) : List Bool := (List.range n).map w.getLsbD

/-- `slice(w, start, len)` (R15): bits `[start, start+len)`; a range outside the word, a negative start
(D20) or an empty range (U12) is a `RangeError`. -/
def slice {n : Nat} (w : BitVec n) (start : Int) (len : Nat) : Except EngineError (BitVec len) :=
  if 0 ≤ start ∧ 1 ≤ len ∧ start + len ≤ n then .ok (w.extractLsb' start.toNat len)
  else .error (.rangeError start len)

/-- `w` with the bits `[i, i+m)` replaced by `other`; the others stay. -/
def splice {n m : Nat} (w : BitVec n) (i : Nat) (other : BitVec m) : BitVec n :=
  (w &&& ~~~((BitVec.allOnes m).setWidth n <<< i)) ||| (other.setWidth n <<< i)

/-- `engrave(w, index, other)` (R16): the index wraps modulo the word's length; a range that then
exceeds the word is a `RangeError` and nothing is written. DESIGN CHOICE (log entry 24): the error records
the index as it was given, not the wrapped one. DESIGN CHOICE (log entry 25): into a word of length 0 the
index does not wrap, so an empty `other` is placed at an index of 0 or below and all else is a `RangeError`. -/
def engrave {n m : Nat} (w : BitVec n) (index : Int) (other : BitVec m) :
    Except EngineError (BitVec n) :=
  let i := (index % (n : Int)).toNat
  if i + m ≤ n then .ok (splice w i other) else .error (.rangeError index m)

/-- Structural equality of words of any two lengths (R17). -/
def sameWord {n m : Nat} (v : BitVec n) (w : BitVec m) : Bool :=
  if h : n = m then decide (v.cast h = w) else false

/-- A word rendered with two given glyphs, index 0 first (R18). -/
def renderWith (clear set : Char) {n : Nat} (w : BitVec n) : List Char :=
  (bitList w).map (fun b => if b then set else clear)

/-- A word rendered with the two fixed, unnamed glyphs (R18, U10). -/
def render {n : Nat} (w : BitVec n) : List Char :=
  renderWith Config.clearGlyph Config.setGlyph w

end Sys2Proof.Machine
end

