-- ==== Sys2Proof/WellFormed.lean ====
section
/-!
DEFINITION. The checks: the constraints a MachineModel must meet (spec/00_scope.md R5) and the check an
instruction must meet (30_encoding.md R66: the operand fits the address field).
-/

namespace Sys2Proof

/-- The constraints of 00_scope.md R5. Starts are natural numbers and keys have length `opLen` by their
types. `keys_once` is no constraint of R5: it is this model's reading of R4, where `optable` is a finite map
(log entry 15). -/
structure MachineModel.Valid {W : Nat} (M : MachineModel W) : Prop where
  word_length : 1 ≤ W
  word_count : 1 ≤ M.wordCount
  store_addressable : M.wordCount ≤ 2 ^ W
  addr_len : 1 ≤ M.addrLen
  op_len : 1 ≤ M.opLen
  op_inside : M.opStart + M.opLen ≤ W
  addr_inside : M.addrStart + M.addrLen ≤ W
  fields_disjoint : M.addrStart + M.addrLen ≤ M.opStart ∨ M.opStart + M.opLen ≤ M.addrStart
  keys_once : (M.optable.map Prod.fst).Nodup
  num_absent : Mnemonic.num ∉ M.optable.map Prod.snd

/-- The same constraints as a test that runs. -/
def MachineModel.valid {W : Nat} (M : MachineModel W) : Bool :=
  decide (1 ≤ W) && decide (1 ≤ M.wordCount) && decide (M.wordCount ≤ 2 ^ W) &&
  decide (1 ≤ M.addrLen) && decide (1 ≤ M.opLen) &&
  decide (M.opStart + M.opLen ≤ W) && decide (M.addrStart + M.addrLen ≤ W) &&
  decide (M.addrStart + M.addrLen ≤ M.opStart ∨ M.opStart + M.opLen ≤ M.addrStart) &&
  decide (M.optable.map Prod.fst).Nodup && decide (Mnemonic.num ∉ M.optable.map Prod.snd)

/-- An instruction of the model `M` is well formed when its operand fits the address field
(30_encoding.md R66). -/
abbrev Instr.WellFormedIn {W : Nat} (M : MachineModel W) (i : Instr) : Prop :=
  i.operand < 2 ^ M.addrLen

/-- Well formed in `Baby32`: the operand is below 32. -/
abbrev Instr.WellFormed (i : Instr) : Prop := i.WellFormedIn Config.baby32

end Sys2Proof
end

