-- ==== Sys2Proof/Decode.lean ====
section
/-!
DEFINITION. The decoder (spec/30_encoding.md R61 to R65, R69, R72) and after it the encoder (R66 to R68).
-/

namespace Sys2Proof

open Machine

/-- `decode(w)` of R65 for a word of any length: opcode field, table lookup, then address field. -/
def decodePair {W n : Nat} (M : MachineModel W) (w : BitVec n) :
    Except EngineError (Mnemonic × Nat) :=
  match slice w M.opStart M.opLen with
  | .error e => .error e
  | .ok p =>
    match M.optable.lookup p with
    | none => .error (.decodeError (bitList p))
    | some m =>
      match slice w M.addrStart M.addrLen with
      | .error e => .error e
      | .ok f => .ok (m, f.toNat)

/-- The instruction of a word in the model `M`; a model that decodes to NUM gives none
(44_stop_and_data.md R141). -/
def decodeIn {W n : Nat} (M : MachineModel W) (w : BitVec n) : Except EngineError Instr :=
  match decodePair M w with
  | .error e => .error e
  | .ok (m, S) =>
    match Instr.ofPair? m S with
    | some i => .ok i
    | none => .error .undefinedNum

/-- The decoder of `Baby32`. -/
def decode (w : Word) : Except EngineError Instr := decodeIn Config.baby32 w

/-- The host's question: the instruction read from the table bits `w` (bit 0 least significant); bits
above `nbits` are 0. -/
def decodeTableWord (nbits w : Nat) : Option Instr :=
  match decode (BitVec.ofNat 32 (w % 2 ^ nbits)) with
  | .ok i => some i
  | .error _ => none

/-! ### The encoder -/

/-- The first key of a table whose value is `m`. -/
def keyOf {k : Nat} (m : Mnemonic) : List (BitVec k × Mnemonic) → Option (BitVec k)
  | [] => none
  | (p, m') :: rest => if m' = m then some p else keyOf m rest

/-- `pattern(m)` (R68): the first key of the opcode table whose value is `m`. -/
def patternOf {W : Nat} (M : MachineModel W) (m : Mnemonic) : Option (BitVec M.opLen) :=
  keyOf m M.optable

/-- The address field the encoder places: a mnemonic without an operand takes 0 (R66). -/
def placedOperand {W : Nat} (M : MachineModel W) (m : Mnemonic) (S : Nat) : Nat :=
  if m ∈ M.needsOperand then S else 0

/-- Encoding a mnemonic and an operand (R66). -/
def encodePair {W : Nat} (M : MachineModel W) (m : Mnemonic) (S : Nat) :
    Except LoadError (BitVec W) :=
  match patternOf M m with
  | none => .error .unknownMnemonic
  | some p =>
    if 2 ^ M.addrLen ≤ placedOperand M m S then .error .wordTooLarge
    else
      match engrave (zeroWord W) M.addrStart (fromUnsigned (placedOperand M m S) M.addrLen) with
      | .error _ => .error .fieldOutsideWord
      | .ok w =>
        match engrave w M.opStart p with
        | .error _ => .error .fieldOutsideWord
        | .ok w' => .ok w'

/-- Encoding NUM: the operand fills the whole word (R67), under the model's policy. -/
def encodeNum {W : Nat} (M : MachineModel W) (x : Int) : Except LoadError (BitVec W) :=
  match fromInt M.overflow x W with
  | .ok w => .ok w
  | .error _ => .error .wordTooLarge

/-- The encoder of `Baby32`: the word of a well-formed instruction. -/
def encode (i : Instr) : Except LoadError Word :=
  encodePair Config.baby32 i.mnemonic i.operand

/-- What the encoder keeps of an instruction: CMP and STP lose their ignored field (R66, R82). -/
def Instr.canonical : Instr → Instr
  | .jmp S => .jmp S
  | .jrp S => .jrp S
  | .ldn S => .ldn S
  | .sto S => .sto S
  | .sub S => .sub S
  | .cmp _ => .cmp 0
  | .stp _ => .stp 0

end Sys2Proof
end

