-- ==== Sys2Proof/Machine/State.lean ====
section
/-!
DEFINITION. The architectural state (spec/10_state.md R20 to R35), the reasons a step can stop, and the
state after reset (R32). Operations on the state stand in Machine/Ops.lean.
-/

namespace Sys2Proof.Machine

/-- The store of a machine with words of `W` bits (10_state.md R28, 20_memory.md R40): the words that are
not zero, as pairs (address, word) with addresses strictly rising. An unlisted address holds `zero(W)`,
the store's reset content (10_state.md R32). A cell is a whole word, since the store has no bytes
(20_memory.md R44; log entry 1). -/
abbrev Memory (W : Nat) := List (Nat × BitVec W)

/-- The descriptor `(address, mnemonic, operand)` of the last completed cycle (10_state.md R25). -/
structure Descriptor where
  /-- The store address the instruction was fetched from. -/
  address : Nat
  mnemonic : Mnemonic
  /-- The raw address field, for CMP and STP too. -/
  operand : Nat
deriving DecidableEq, Repr

/-- The whole state of an engine with words of `W` bits (10_state.md R20, R35). -/
structure EngineState (W : Nat) where
  /-- CI, the program counter (R21). -/
  ci : BitVec W
  /-- A, the accumulator (R22). -/
  a : BitVec W
  /-- The store (R28). -/
  store : Memory W
  /-- The run/halt flag: true is `Halted` (R23). -/
  halted : Bool
  /-- The executed-cycle counter, unbounded (R24). -/
  cycles : Nat
  /-- The last-decoded-instruction descriptor (R25). -/
  last : Option Descriptor
  /-- The desired speed in instructions per second, a control input that only paces (R26). -/
  speed : Rat
  /-- The stop signal, a control input (R27). -/
  cancel : Bool
  /-- The fault mark (R35). -/
  fault : Option EngineError
deriving DecidableEq, Repr

/-- The state of the default machine `Baby32`: every field of `EngineState` with 32-bit words. -/
structure State extends EngineState 32
deriving DecidableEq, Repr

/-- Why the machine stops with a fault. -/
inductive Fault where
  /-- Raised by a step, or by a manual step, of a machine whose fault mark is set: the error has gone to
  the caller and no cycle is taken until a reset (60_exceptions.md R160). Safe: the spec gives no
  further behaviour. -/
  | engineFaulted (error : EngineError)
deriving DecidableEq, Repr

/-- Why the model has no move. -/
inductive Refusal where
  /-- An instruction without a meaning, raised by exec's arm only. Safe. No arm raises it now. -/
  | notModelled (mnemonic : String)
  /-- Raised by `newMachine` for a MachineModel that breaks 00_scope.md R5. Safe. -/
  | invalidModel
  /-- Raised by the manual step asked for while `Running` (40_instruction_cycle.md R98, D16). Safe. -/
  | stepWhileRunning
  /-- Raised by `load`, `clear_memory`, `clear_state` while `Running` (70_reset_and_hazards.md R184 to
  R186, D17). Safe. -/
  | hostOperationWhileRunning
  /-- Raised by the same three operations on a faulted machine (92_eei_decisions.md, host duties: no use
  after a fault without a reset). Safe. -/
  | usedAfterFault
  /-- Raised by a write of a speed that is not positive (93_implementation_defined.md U11). Safe. -/
  | nonPositiveSpeed
deriving DecidableEq, Repr

/-- The state of a newly built engine (10_state.md R32, 70_reset_and_hazards.md R180). `speed` is
`Config.speed0` (log entry 4). -/
def EngineState.initial (W : Nat) : EngineState W where
  ci := 0#W
  a := 0#W
  store := []
  halted := true
  cycles := 0
  last := none
  speed := Config.speed0
  cancel := false
  fault := none

/-- The default machine right after reset (10_state.md R32). -/
def State.reset : State := ⟨EngineState.initial 32⟩

end Sys2Proof.Machine
end

