-- ==== Sys2Proof/Machine/Ops.lean ====
section
/-!
DEFINITION. The named operations over the store and the registers (spec/20_memory.md R41 to R43,
10_state.md R21 to R25), the steps of the cycle around the execute step (40_instruction_cycle.md R91,
R92, R93, R95) and taking an error (60_exceptions.md R158, R159).
-/

namespace Sys2Proof.Machine

/-! ### The store as a list in canonical form -/

/-- The canonical form of a store of `N` words: addresses strictly rising and below `N`, no zero word. -/
def Memory.wf {W : Nat} (N : Nat) (m : Memory W) : Bool :=
  decide (m.Pairwise (fun c d => c.1 < d.1)) && m.all (fun c => decide (c.1 < N) && c.2 != 0#W)

/-- The word at an address; an unlisted one is `zero(W)` (10_state.md R32). -/
def cellRead {W : Nat} : Memory W → Nat → BitVec W
  | [], _ => 0#W
  | (k, v) :: rest, a => if k = a then v else cellRead rest a

/-- The store without the entry of an address. -/
def cellErase {W : Nat} (m : Memory W) (a : Nat) : Memory W := m.filter (fun c => c.1 ≠ a)

/-- An entry placed before the first greater address. -/
def cellInsert {W : Nat} (a : Nat) (v : BitVec W) : Memory W → Memory W
  | [] => [(a, v)]
  | c :: rest => if a < c.1 then (a, v) :: c :: rest else c :: cellInsert a v rest

/-- The store with the word at one address replaced; a zero word is not listed. -/
def cellWrite {W : Nat} (m : Memory W) (a : Nat) (v : BitVec W) : Memory W :=
  if v = 0#W then cellErase m a else cellInsert a v (cellErase m a)

/-! ### Register and flag writes -/

/-- `x[CI] <- v`. -/
def EngineState.setCI {W : Nat} (s : EngineState W) (v : BitVec W) : EngineState W :=
  { s with ci := v }

/-- `x[A] <- v`. -/
def EngineState.setA {W : Nat} (s : EngineState W) (v : BitVec W) : EngineState W :=
  { s with a := v }

/-- The store replaced. -/
def EngineState.setStore {W : Nat} (s : EngineState W) (m : Memory W) : EngineState W :=
  { s with store := m }

/-- `halted <- b` (10_state.md R23). -/
def EngineState.setHalted {W : Nat} (s : EngineState W) (b : Bool) : EngineState W :=
  { s with halted := b }

/-- Step 5 of the cycle (40_instruction_cycle.md R95): the counter and the descriptor. -/
def EngineState.record {W : Nat} (s : EngineState W) (d : Descriptor) : EngineState W :=
  { s with cycles := s.cycles + 1, last := some d }

/-- `speed` written by the host (10_state.md R26). -/
def EngineState.setSpeed {W : Nat} (s : EngineState W) (q : Rat) : EngineState W :=
  { s with speed := q }

/-- `cancel` written by the host (10_state.md R27). -/
def EngineState.setCancel {W : Nat} (s : EngineState W) (b : Bool) : EngineState W :=
  { s with cancel := b }

/-- The fault mark written (10_state.md R35). -/
def EngineState.setFault {W : Nat} (s : EngineState W) (f : Option EngineError) : EngineState W :=
  { s with fault := f }

/-! ### Store accesses -/

/-- `MemRead(a, 1)` (20_memory.md R41). -/
def memRead {W : Nat} (M : MachineModel W) (s : EngineState W) (a : Nat) :
    Except EngineError (BitVec W) :=
  if a < M.wordCount then .ok (cellRead s.store a) else .error (.boundsError a)

/-- `MemWrite(a, 1, v)` of a word of any length (20_memory.md R42); the address is checked first
(log entry 16). -/
def memWrite {W n : Nat} (M : MachineModel W) (s : EngineState W) (a : Nat) (v : BitVec n) :
    Except EngineError (EngineState W) :=
  if a < M.wordCount then
    if h : n = W then .ok (s.setStore (cellWrite s.store a (v.cast h))) else .error .lengthError
  else .error (.boundsError a)

/-- `clear()` (20_memory.md R43). -/
def memClear {W : Nat} (s : EngineState W) : EngineState W := s.setStore []

/-! ### The steps around the execute step -/

/-- `from_unsigned((to_unsigned(CI) + 1) mod N, W)`: CI one position on, wrapping at the end of the store
(40_instruction_cycle.md R91, 41_control_transfer.md R112). -/
def nextCI {W : Nat} (M : MachineModel W) (ci : BitVec W) : BitVec W :=
  fromUnsigned ((ci.toNat + 1) % M.wordCount) W

/-- Step 1 (R91). -/
def advanceCI {W : Nat} (M : MachineModel W) (s : EngineState W) : EngineState W :=
  s.setCI (nextCI M s.ci)

/-- Step 2 (R92): the word at CI, after step 1. -/
def fetchWord {W : Nat} (M : MachineModel W) (s : EngineState W) : Except EngineError (BitVec W) :=
  memRead M s s.ci.toNat

/-- Steps 2 and 3 as the decoder's pair (R92, R93). -/
def fetchPair {W : Nat} (M : MachineModel W) (s : EngineState W) :
    Except EngineError (Mnemonic × Nat) :=
  match fetchWord M s with
  | .error e => .error e
  | .ok w => decodePair M w

/-! ### Taking an error -/

/-- Entry (60_exceptions.md R158, R159): the cycle stops at the raise and the fault mark is set; nothing
else changes. There is no return from it (R160). -/
def takeError {W : Nat} (e : EngineError) (s : EngineState W) : EngineState W :=
  s.setFault (some e)

/-- The end of an execute step of `Baby32` begun in `s`: its result, or the error taken in `s`. -/
def settle (s : State) : Except EngineError (EngineState 32) → Host.Outcome State Fault Refusal
  | .ok t => .next ⟨t⟩
  | .error e => .next ⟨takeError e s.toEngineState⟩

end Sys2Proof.Machine
end

