-- ==== Sys2Proof/Machine/Operands.lean ====
section
/-!
DEFINITION. The one operand form (spec/42_load_store.md R122, 30_encoding.md R72): direct, a whole word.
-/

namespace Sys2Proof.Machine

/-- The effective address is the address field itself: no base, index, displacement or scale (R72, R122). -/
def effectiveAddress (S : Nat) : Nat := S

/-- The word an instruction with operand `S` reads: JMP, JRP, LDN, SUB (20_memory.md R46). -/
def readOperand {W : Nat} (M : MachineModel W) (S : Nat) (s : EngineState W) :
    Except EngineError (BitVec W) :=
  memRead M s (effectiveAddress S)

/-- The word an instruction with operand `S` writes: STO (20_memory.md R46). -/
def writeOperand {W : Nat} (M : MachineModel W) (S : Nat) (v : BitVec W) (s : EngineState W) :
    Except EngineError (EngineState W) :=
  memWrite M s (effectiveAddress S) v

end Sys2Proof.Machine
end

