-- ==== Sys2Proof/Machine/Arithmetic.lean ====
section
/-!
DEFINITION. Arithmetic: SUB, both opcode patterns (spec/43_arithmetic.md).
-/

namespace Sys2Proof.Machine

/-- SUB S: `A <- from_int(to_int(A) - to_int(MemRead(S, 1)), W)` (R130). -/
def doSub {W : Nat} (M : MachineModel W) (S : Nat) (s : EngineState W) :
    Except EngineError (EngineState W) :=
  match readOperand M S s with
  | .error e => .error e
  | .ok w =>
    match fromInt M.overflow (s.a.toInt - w.toInt) W with
    | .error e => .error e
    | .ok v => .ok (s.setA v)

/-- SUB in `Baby32` (R130). -/
def execSub (S : Nat) (s : State) : Host.Outcome State Fault Refusal :=
  settle s (doSub Config.baby32 S s.toEngineState)

end Sys2Proof.Machine
end

