-- ==== Sys2Proof/Machine/Flags.lean ====
section
/-!
DEFINITION. Flags. The machine has no condition codes (spec/10_state.md R30): no instruction computes a
flag. The one test of a sign is CMP's, on A at the moment it executes (41_control_transfer.md R112), and
the one status flag is `halted` (10_state.md R23).
-/

namespace Sys2Proof.Machine

/-- `to_int(w) < 0`, the test of CMP (41_control_transfer.md R112). -/
def isNegative {W : Nat} (w : BitVec W) : Bool := decide (w.toInt < 0)

end Sys2Proof.Machine
end

