-- ==== Sys2Proof/Machine/ControlTransfer.lean ====
section
/-!
DEFINITION. The control transfers JMP, JRP, CMP (spec/41_control_transfer.md). `doX` is the execute step
for any MachineModel; `execX` is it for `Baby32`. CI is the value after step 1 of the cycle.
-/

namespace Sys2Proof.Machine

/-- JMP S: `CI <- MemRead(S, 1)`, all `W` bits (R110). -/
def doJmp {W : Nat} (M : MachineModel W) (S : Nat) (s : EngineState W) :
    Except EngineError (EngineState W) :=
  match readOperand M S s with
  | .error e => .error e
  | .ok w => .ok (s.setCI w)

/-- JRP S: `CI <- from_int(to_int(MemRead(S, 1)) + to_int(CI), W)` (R111). -/
def doJrp {W : Nat} (M : MachineModel W) (S : Nat) (s : EngineState W) :
    Except EngineError (EngineState W) :=
  match readOperand M S s with
  | .error e => .error e
  | .ok w =>
    match fromInt M.overflow (w.toInt + s.ci.toInt) W with
    | .error e => .error e
    | .ok v => .ok (s.setCI v)

/-- CMP: `if to_int(A) < 0 then CI` one position on, wrapping (R112). -/
def doCmp {W : Nat} (M : MachineModel W) (s : EngineState W) : Except EngineError (EngineState W) :=
  .ok (if isNegative s.a then s.setCI (nextCI M s.ci) else s)

/-- JMP in `Baby32` (R110). -/
def execJmp (S : Nat) (s : State) : Host.Outcome State Fault Refusal :=
  settle s (doJmp Config.baby32 S s.toEngineState)

/-- JRP in `Baby32` (R111). -/
def execJrp (S : Nat) (s : State) : Host.Outcome State Fault Refusal :=
  settle s (doJrp Config.baby32 S s.toEngineState)

/-- CMP in `Baby32` (R112). -/
def execCmp (s : State) : Host.Outcome State Fault Refusal :=
  settle s (doCmp Config.baby32 s.toEngineState)

end Sys2Proof.Machine
end

