-- ==== Sys2Proof/Machine/LoadStore.lean ====
section
/-!
DEFINITION. Load and store: LDN, STO (spec/42_load_store.md). `doX` is the execute step for any
MachineModel; `execX` is it for `Baby32`.
-/

namespace Sys2Proof.Machine

/-- LDN S: `A <- from_int(- to_int(MemRead(S, 1)), W)` (R120). -/
def doLdn {W : Nat} (M : MachineModel W) (S : Nat) (s : EngineState W) :
    Except EngineError (EngineState W) :=
  match readOperand M S s with
  | .error e => .error e
  | .ok w =>
    match fromInt M.overflow (-w.toInt) W with
    | .error e => .error e
    | .ok v => .ok (s.setA v)

/-- STO S: `MemWrite(S, 1, A)` (R121). -/
def doSto {W : Nat} (M : MachineModel W) (S : Nat) (s : EngineState W) :
    Except EngineError (EngineState W) :=
  writeOperand M S s.a s

/-- LDN in `Baby32` (R120). -/
def execLdn (S : Nat) (s : State) : Host.Outcome State Fault Refusal :=
  settle s (doLdn Config.baby32 S s.toEngineState)

/-- STO in `Baby32` (R121). -/
def execSto (S : Nat) (s : State) : Host.Outcome State Fault Refusal :=
  settle s (doSto Config.baby32 S s.toEngineState)

end Sys2Proof.Machine
end

