-- ==== Sys2Proof/Machine/Stop.lean ====
section
/-!
DEFINITION. The stop instruction STP (spec/44_stop_and_data.md).
-/

namespace Sys2Proof.Machine

/-- STP: `halted <- true` (R140). -/
def doStp {W : Nat} (s : EngineState W) : Except EngineError (EngineState W) :=
  .ok (s.setHalted true)

/-- STP in `Baby32` (R140). -/
def execStp (s : State) : Host.Outcome State Fault Refusal :=
  settle s (doStp s.toEngineState)

end Sys2Proof.Machine
end

