-- ==== Sys2Proof/Machine/Dispatch.lean ====
section
/-!
DEFINITION. The execute step of `Baby32` (spec/40_instruction_cycle.md R94): one arm per instruction.
-/

namespace Sys2Proof.Machine

def exec (i : Instr) (s : State) : Host.Outcome State Fault Refusal :=
  match i with
  | .jmp S => Sys2Proof.Machine.execJmp S s
  | .jrp S => Sys2Proof.Machine.execJrp S s
  | .ldn S => Sys2Proof.Machine.execLdn S s
  | .sto S => Sys2Proof.Machine.execSto S s
  | .sub S => Sys2Proof.Machine.execSub S s
  | .cmp _ => Sys2Proof.Machine.execCmp s
  | .stp _ => Sys2Proof.Machine.execStp s

end Sys2Proof.Machine
end

