-- ==== Sys2Proof/Machine/Cycle.lean ====
section
/-!
DEFINITION. The instruction cycle and the run loop of `Baby32` over `State` and `exec`
(spec/40_instruction_cycle.md R90 to R97). Machine/Step.lean calls them.
-/

namespace Sys2Proof.Machine

/-- Step 1 on the whole state (R91). -/
def beginCycle (s : State) : State := ⟨advanceCI Config.baby32 s.toEngineState⟩

/-- Steps 2 and 3 on the state step 1 left (R92, R93). -/
def fetchInstr (s : State) : Except EngineError Instr :=
  match fetchWord Config.baby32 s.toEngineState with
  | .error e => .error e
  | .ok w => decode w

/-- The descriptor of an instruction fetched from an address (10_state.md R25). -/
def descriptorOf (address : Nat) (i : Instr) : Descriptor := ⟨address, i.mnemonic, i.operand⟩

/-- Step 5 (R95) after an execute step: done only when nothing was raised. -/
def finishCycle (d : Descriptor) :
    Host.Outcome State Fault Refusal → Host.Outcome State Fault Refusal
  | .next t =>
    match t.fault with
    | none => .next ⟨t.toEngineState.record d⟩
    | some _ => .next t
  | .fault r => .fault r
  | .refused r => .refused r

/-- The cycle of `Baby32` (R90), begun with no fault mark. -/
def cycle (s : State) : Host.Outcome State Fault Refusal :=
  match fetchInstr (beginCycle s) with
  | .error e => .next ⟨takeError e (beginCycle s).toEngineState⟩
  | .ok i => finishCycle (descriptorOf (beginCycle s).ci.toNat i) (exec i (beginCycle s))

/-- One iteration of the run loop (R97): cancelled, it has ended and keeps the state; faulted, it answers
the fault (60_exceptions.md R160); halted, it idles; running, it takes a cycle (log entry 6). -/
def loopIteration (s : State) : Host.Outcome State Fault Refusal :=
  if s.cancel then .next s
  else
    match s.fault with
    | some e => .fault (.engineFaulted e)
    | none => if s.halted then .next s else cycle s

/-- The pause between two cycles, `max(0, 1/speed - elapsed)` seconds (70_reset_and_hazards.md R191).
Timing only: no step reads it (log entry 19). -/
def pacingPause (speed elapsed : Rat) : Rat := max 0 (1 / speed - elapsed)

end Sys2Proof.Machine
end

