-- ==== Sys2Proof/Machine/Step.lean ====
section
/-!
DEFINITION. The step of `Baby32`: one iteration of the run loop (spec/40_instruction_cycle.md R97), and
the placing of a word where the next step fetches.
-/

namespace Sys2Proof.Machine

/-- One step (R97). -/
def step (s : State) : Host.Outcome State Fault Refusal := loopIteration s

/-- `s` with an instruction word stored where the next cycle fetches, `(to_unsigned(CI) + 1) mod N` (R91),
and the run loop ready to take that cycle: not halted, not cancelled, no fault. It stands for the host's
load and resume (70_reset_and_hazards.md R181; log entry 8). -/
def State.withFetchWord (s : State) (nbits w : Nat) : State :=
  ⟨{ s.toEngineState with
      store := cellWrite s.store (nextCI Config.baby32 s.ci).toNat (BitVec.ofNat 32 (w % 2 ^ nbits))
      halted := false
      cancel := false
      fault := none }⟩

end Sys2Proof.Machine
end

