-- ==== Sys2Proof/Machine/Engine.lean ====
section
/-!
DEFINITION. The engine of any MachineModel (spec/40_instruction_cycle.md R90, R97; 00_scope.md R4, R5):
the execute step by mnemonic, the whole cycle, one iteration of the run loop, construction. `Baby32`'s
own cycle and loop, over `State` and `exec`, stand in Machine/Cycle.lean.
-/

namespace Sys2Proof.Machine

/-- Step 4 (R94): the rule chosen by the mnemonic alone; a decoded NUM raises `UndefinedNum`
(44_stop_and_data.md R141). -/
def executeOf {W : Nat} (M : MachineModel W) (m : Mnemonic) (S : Nat) (s : EngineState W) :
    Except EngineError (EngineState W) :=
  match m with
  | .jmp => doJmp M S s
  | .jrp => doJrp M S s
  | .ldn => doLdn M S s
  | .sto => doSto M S s
  | .sub => doSub M S s
  | .cmp => doCmp M s
  | .stp => doStp s
  | .num => .error .undefinedNum

/-- The cycle (R90): increment, fetch, decode, execute, record; a raise in step 3 or 4 is taken in the
state step 1 left. -/
def cycleOf {W : Nat} (M : MachineModel W) (s : EngineState W) : EngineState W :=
  match fetchPair M (advanceCI M s) with
  | .error e => takeError e (advanceCI M s)
  | .ok (m, S) =>
    match executeOf M m S (advanceCI M s) with
    | .error e => takeError e (advanceCI M s)
    | .ok t => t.record ⟨(advanceCI M s).ci.toNat, m, S⟩

/-- One iteration of the run loop (R97): a cancelled loop has ended and keeps the state, a faulted engine
takes no cycle (60_exceptions.md R160), a halted one idles, a running one takes a cycle (log entry 6). -/
def loopOf {W : Nat} (M : MachineModel W) (s : EngineState W) :
    Host.Outcome (EngineState W) Fault Refusal :=
  if s.cancel then .next s
  else
    match s.fault with
    | some e => .fault (.engineFaulted e)
    | none => if s.halted then .next s else .next (cycleOf M s)

/-- Construction of an engine from a MachineModel (70_reset_and_hazards.md R180); a model that breaks
00_scope.md R5 is refused. -/
def newMachine {W : Nat} (M : MachineModel W) : Host.Outcome (EngineState W) Fault Refusal :=
  if M.valid then .next (EngineState.initial W) else .refused .invalidModel

end Sys2Proof.Machine
end

