-- ==== Sys2Proof/Machine/Loader.lean ====
section
/-!
DEFINITION. The host's loader: assembly text and binary dumps to a store image (spec/30_encoding.md R67,
R73 to R81). It is software around the engine (00_scope.md R3 item 3) and touches no engine state by
itself; Machine/HostOps.lean commits its image.
-/

namespace Sys2Proof.Machine

/-! ### Lines (R73, R74) -/

/-- A text cut at every occurrence of a character; always at least one piece. -/
def cutAt (c : Char) : List Char → List (List Char)
  | [] => [[]]
  | x :: xs =>
    if x = c then [] :: cutAt c xs
    else
      match cutAt c xs with
      | [] => [[x]]
      | t :: ts => (x :: t) :: ts

/-- White space inside a line. -/
def isBlank (c : Char) : Bool := c == ' ' || c == '\t' || c == '\r'

/-- A line without its trailing comment and surrounding white space (R74). -/
def stripLine (line : List Char) : List Char :=
  (((line.takeWhile (· ≠ ';')).dropWhile isBlank).reverse.dropWhile isBlank).reverse

/-- The meaningful lines of a text, in order (R74). -/
def meaningfulLines (source : List Char) : List (List Char) :=
  ((cutAt '\n' source).map stripLine).filter (fun l => !l.isEmpty)

/-! ### Numbers and names -/

/-- A decimal natural number: one or more digits. -/
def parseNat (text : List Char) : Option Nat :=
  if text.isEmpty || !text.all Char.isDigit then none
  else some (text.foldl (fun n c => 10 * n + (c.toNat - '0'.toNat)) 0)

/-- A decimal integer, which may carry a minus sign (R73). -/
def parseInt : List Char → Option Int
  | '-' :: digits => (parseNat digits).map (fun n => -(n : Int))
  | text => (parseNat text).map (fun n => (n : Int))

/-- The mnemonic a name spells, in capitals (R73, D24). -/
def mnemonicOfName : List Char → Option Mnemonic
  | ['J', 'M', 'P'] => some .jmp
  | ['J', 'R', 'P'] => some .jrp
  | ['L', 'D', 'N'] => some .ldn
  | ['S', 'T', 'O'] => some .sto
  | ['S', 'U', 'B'] => some .sub
  | ['C', 'M', 'P'] => some .cmp
  | ['S', 'T', 'P'] => some .stp
  | ['N', 'U', 'M'] => some .num
  | _ => none

/-- The mnemonics the assembler of a model accepts: the values of its opcode table together with NUM
(R76; 90_conflicts.md C11). -/
def accepted {W : Nat} (M : MachineModel W) (m : Mnemonic) : Bool :=
  m == .num || (M.optable.map Prod.snd).contains m

/-! ### Format detection (R77) -/

/-- The format of a program text. -/
inductive SourceFormat where
  | assemblyText | binaryDump | unknown
deriving DecidableEq, Repr

/-- `\w+`: letters, digits, underscores, at least one. -/
def isWordText (text : List Char) : Bool :=
  !text.isEmpty && text.all (fun c => c.isAlphanum || c == '_')

/-- `\d+`. -/
def isDigitText (text : List Char) : Bool := !text.isEmpty && text.all Char.isDigit

/-- `[01]+`. -/
def isBitText (text : List Char) : Bool := !text.isEmpty && text.all (fun c => c == '0' || c == '1')

/-- `\d+:`. -/
def isLabelText (text : List Char) : Bool :=
  match text.reverse with
  | ':' :: digits => isDigitText digits
  | _ => false

/-- The pattern a line matches: `^\d+ \w+( \d+)?$` or `^\d+: [01]+$`, or neither. -/
def lineFormat (line : List Char) : SourceFormat :=
  match cutAt ' ' line with
  | [x, y] =>
    if isDigitText x && isWordText y then .assemblyText
    else if isLabelText x && isBitText y then .binaryDump
    else .unknown
  | [x, y, z] => if isDigitText x && isWordText y && isDigitText z then .assemblyText else .unknown
  | _ => .unknown

/-- `detect_format` on the meaningful lines: the first line that matches a pattern decides (R77). -/
def detectFormat : List (List Char) → SourceFormat
  | [] => .unknown
  | line :: rest =>
    match lineFormat line with
    | .unknown => detectFormat rest
    | f => f

/-! ### One line -/

/-- The word of an accepted mnemonic and an operand (R66, R67). -/
def buildWord {W : Nat} (M : MachineModel W) (m : Mnemonic) (x : Int) : Except LoadError (BitVec W) :=
  if m = .num then encodeNum M x else encodePair M m x.toNat

/-- The operand text of a mnemonic as an integer: signed for NUM, unsigned for the others (R73, D24). -/
def parseOperand (m : Mnemonic) (text : List Char) : Option Int :=
  if m = .num then parseInt text else (parseNat text).map (fun n => (n : Int))

/-- The word of a mnemonic and the operand texts after it (R76): an operand where the mnemonic needs one,
checked as a store address where it is address-typed; an operand of CMP or STP is ignored (D24). DESIGN
CHOICE (log entry 13): more than one operand text is an invalid operand, of any mnemonic; the one text after a
mnemonic that needs no operand is ignored whatever it is, a decimal integer or not. DESIGN CHOICE (log entry
26): NUM in a model whose `needsOperand` lacks it ignores its text too and gives the word 0. -/
def assembleOperand {W : Nat} (M : MachineModel W) (m : Mnemonic) (operands : List (List Char)) :
    Except LoadError (BitVec W) :=
  match operands with
  | [] => if m ∈ M.needsOperand then .error .missingOperand else buildWord M m 0
  | [text] =>
    if m ∈ M.needsOperand then
      match parseOperand m text with
      | none => .error .invalidOperand
      | some x =>
        if m ∈ M.addrTyped ∧ ¬(0 ≤ x ∧ x < M.wordCount) then .error .operandNotStoreAddress
        else buildWord M m x
    else buildWord M m 0
  | _ => .error .invalidOperand

/-- The word of one meaningful line of assembly text, at running count `k` (R75, R76). DESIGN CHOICE (log
entry 13): a line with an address and nothing after it names no known mnemonic. -/
def assembleLine {W : Nat} (M : MachineModel W) (k : Nat) (line : List Char) :
    Except LoadError (BitVec W) :=
  match cutAt ' ' line with
  | address :: rest =>
    if parseNat address ≠ some k then .error .malformedAddress
    else
      match rest with
      | [] => .error .unknownMnemonic
      | name :: operands =>
        match mnemonicOfName name with
        | none => .error .unknownMnemonic
        | some m => if accepted M m then assembleOperand M m operands else .error .unknownMnemonic
  | [] => .error .malformedAddress

/-- A line cut at its first `": "` (R78); none if it has none. -/
def cutLabel : List Char → Option (List Char × List Char)
  | ':' :: ' ' :: rest => some ([], rest)
  | c :: rest => (cutLabel rest).map (fun p => (c :: p.1, p.2))
  | [] => none

/-- The word of one meaningful line of a binary dump, at running count `k` (R78). DESIGN CHOICE (log entry
13), where R78 and R80 name no error class: a line without `": "` is a malformed address; all that follows
the first `": "` is the bit string, so a blank or a second `": "` in it makes it a malformed bit string. -/
def dumpLine {W : Nat} (k : Nat) (line : List Char) : Except LoadError (BitVec W) :=
  match cutLabel line with
  | none => .error .malformedAddress
  | some (address, bits) =>
    if parseNat address = some k then
      match fromString bits W with
      | some w => .ok w
      | none => .error .malformedBitString
    else .error .malformedAddress

/-! ### The pass and the commit (R76, R79, R80) -/

/-- The scratch image a pass has built, with the errors it recorded, each with its line's running count. -/
abbrev LoadResult (W : Nat) := Memory W × List (Nat × LoadError)

/-- One pass over the meaningful lines from running count `k`: an error is recorded and the pass goes on;
a word goes to slot `k` of the scratch image, if the store has that slot; the counter always rises. -/
def loadPass {W : Nat} (N : Nat) (wordOf : Nat → List Char → Except LoadError (BitVec W)) :
    List (List Char) → Nat → Memory W → LoadResult W
  | [], _, image => (image, [])
  | line :: rest, k, image =>
    match wordOf k line with
    | .error e => ((loadPass N wordOf rest (k + 1) image).1,
        (k, e) :: (loadPass N wordOf rest (k + 1) image).2)
    | .ok w =>
      if k < N then loadPass N wordOf rest (k + 1) (cellWrite image k w)
      else ((loadPass N wordOf rest (k + 1) image).1,
        (k, .tooManyLines) :: (loadPass N wordOf rest (k + 1) image).2)

/-- `load(source, model, …)` up to the commit: the image of a text with no error, or all its errors
(R79, R80). The scratch image starts as `N` zero words. -/
def loadImage {W : Nat} (M : MachineModel W) (source : List Char) :
    Except (List (Nat × LoadError)) (Memory W) :=
  let lines := meaningfulLines source
  match detectFormat lines with
  | .unknown => .error [(0, .unrecognizedFormat)]
  | .assemblyText =>
    match loadPass M.wordCount (assembleLine M) lines 0 [] with
    | (image, []) => .ok image
    | (_, errors) => .error errors
  | .binaryDump =>
    match loadPass M.wordCount dumpLine lines 0 [] with
    | (image, []) => .ok image
    | (_, errors) => .error errors

end Sys2Proof.Machine
end

