-- ==== Sys2Proof/Machine/HostOps.lean ====
section
/-!
DEFINITION. What the host can do to the machine (spec/10_state.md R31): the three control inputs
(60_exceptions.md R162), the manual step (40_instruction_cycle.md R98), `load`, `clear_memory` and
`clear_state` (70_reset_and_hazards.md R184 to R186). Each falls between two cycles (10_state.md R33). The
operations ending in `Of` are those of every machine variant (40_instruction_cycle.md R103); `Baby32`'s
are the same operations on `State`, its manual step through `exec`.
-/

namespace Sys2Proof.Machine

/-- The events of the host. -/
inductive HostEvent where
  /-- Pause (true) or resume (false) (40_instruction_cycle.md R99). -/
  | setHalted (b : Bool)
  /-- The stop signal (R102). -/
  | setCancel (b : Bool)
  /-- The desired speed (10_state.md R26). -/
  | setSpeed (q : Rat)
  /-- `step()` while halted (R98). -/
  | manualStep
  /-- `load` of a program text (R184). -/
  | load (source : List Char)
  /-- `clear_memory()` (R185). -/
  | clearMemory
  /-- `clear_state()` (R186). -/
  | clearState
deriving DecidableEq, Repr

/-- One move of the whole system: an iteration of the run loop, or an event of the host. -/
inductive Move where
  | loop
  | host (e : HostEvent)
deriving DecidableEq, Repr

/-- "Every machine variant offers exactly four operations" (40_instruction_cycle.md R103). -/
inductive MachineOp where
  /-- `step` (R90, on request R98). -/
  | step
  /-- `run_until_halt_or_cancel` (R97). -/
  | runUntilHaltOrCancel
  /-- `clear_memory` (70_reset_and_hazards.md R185). -/
  | clearMemory
  /-- `clear_state`, also `clear_registers` (70_reset_and_hazards.md R186). -/
  | clearState
deriving DecidableEq, Repr

/-- The move that performs an operation of the contract (R103); the run operation goes on by one iteration
of its loop a move (log entry 6). -/
def MachineOp.move : MachineOp → Move
  | .step => .host .manualStep
  | .runUntilHaltOrCancel => .loop
  | .clearMemory => .host .clearMemory
  | .clearState => .host .clearState

/-! ### Every machine variant -/

/-- A request the spec admits only while `halted` is true and no cycle is in flight (D17), on a machine
that is not faulted (host duties of 92_eei_decisions.md; log entry 11): `t` when admitted. -/
def whileHalted {W : Nat} (s t : EngineState W) : Host.Outcome (EngineState W) Fault Refusal :=
  if s.fault.isSome then .refused .usedAfterFault
  else if s.halted then .next t
  else .refused .hostOperationWhileRunning

/-- A write of `speed`; a value that is not positive has no meaning (U11). -/
def setSpeedOf {W : Nat} (q : Rat) (s : EngineState W) : Host.Outcome (EngineState W) Fault Refusal :=
  if 0 < q then .next (s.setSpeed q) else .refused .nonPositiveSpeed

/-- `step()`: one cycle, `halted` neither read by it nor cleared (40_instruction_cycle.md R98). -/
def manualStepOf {W : Nat} (M : MachineModel W) (s : EngineState W) :
    Host.Outcome (EngineState W) Fault Refusal :=
  match s.fault with
  | some e => .fault (.engineFaulted e)
  | none => if s.halted then .next (cycleOf M s) else .refused .stepWhileRunning

/-- `load`: the whole store replaced by the image of the text, or nothing changed when the text has any
error (30_encoding.md R79, 70_reset_and_hazards.md R184). The errors are `loadImage`'s. -/
def loadOf {W : Nat} (M : MachineModel W) (source : List Char) (s : EngineState W) :
    Host.Outcome (EngineState W) Fault Refusal :=
  match loadImage M source with
  | .ok image => whileHalted s (s.setStore image)
  | .error _ => whileHalted s s

/-- `clear_memory()` (R185). -/
def clearMemoryOf {W : Nat} (s : EngineState W) : Host.Outcome (EngineState W) Fault Refusal :=
  whileHalted s (memClear s)

/-- `clear_state()`: CI and A zeroed (R186). -/
def clearStateOf {W : Nat} (s : EngineState W) : Host.Outcome (EngineState W) Fault Refusal :=
  whileHalted s ((s.setCI (zeroWord W)).setA (zeroWord W))

/-- One event of the host, on any machine variant. -/
def hostEventOf {W : Nat} (M : MachineModel W) (e : HostEvent) (s : EngineState W) :
    Host.Outcome (EngineState W) Fault Refusal :=
  match e with
  | .setHalted b => .next (s.setHalted b)
  | .setCancel b => .next (s.setCancel b)
  | .setSpeed q => setSpeedOf q s
  | .manualStep => manualStepOf M s
  | .load source => loadOf M source s
  | .clearMemory => clearMemoryOf s
  | .clearState => clearStateOf s

/-- The result of a move, on any machine variant. -/
def moveOf {W : Nat} (M : MachineModel W) (x : Move) (s : EngineState W) :
    Host.Outcome (EngineState W) Fault Refusal :=
  match x with
  | .loop => loopOf M s
  | .host e => hostEventOf M e s

/-! ### `Baby32` -/

/-- An outcome of the engine with 32-bit words as an outcome of `Baby32`. -/
def ofEngine : Host.Outcome (EngineState 32) Fault Refusal → Host.Outcome State Fault Refusal
  | .next t => .next ⟨t⟩
  | .fault r => .fault r
  | .refused r => .refused r

/-- `step()` of `Baby32`: as `manualStepOf`, its cycle the one that runs `exec` (R98). -/
def hostManualStep (s : State) : Host.Outcome State Fault Refusal :=
  match s.fault with
  | some e => .fault (.engineFaulted e)
  | none => if s.halted then cycle s else .refused .stepWhileRunning

/-- One event of the host on `Baby32`. -/
def hostEvent (e : HostEvent) (s : State) : Host.Outcome State Fault Refusal :=
  match e with
  | .setHalted b => .next ⟨s.setHalted b⟩
  | .setCancel b => .next ⟨s.setCancel b⟩
  | .setSpeed q => ofEngine (setSpeedOf q s.toEngineState)
  | .manualStep => hostManualStep s
  | .load source => ofEngine (loadOf Config.baby32 source s.toEngineState)
  | .clearMemory => ofEngine (clearMemoryOf s.toEngineState)
  | .clearState => ofEngine (clearStateOf s.toEngineState)

/-- The result of a move of `Baby32`. -/
def move (x : Move) (s : State) : Host.Outcome State Fault Refusal :=
  match x with
  | .loop => loopIteration s
  | .host e => hostEvent e s

end Sys2Proof.Machine
end

