-- ==== Sys2Proof/Machine/Observer.lean ====
section
/-!
DEFINITION. What the observer sees between cycles (spec/10_state.md R31, R33; 20_memory.md R50) and the
rendering of the store (00_scope.md R18).
-/

namespace Sys2Proof.Machine

/-- The observer's read accessors: CI, A, store contents, run/halt flag, cycle counter, descriptor. -/
structure Observation (W : Nat) where
  ci : BitVec W
  a : BitVec W
  /-- The `N` words in address order. -/
  words : List (BitVec W)
  halted : Bool
  cycles : Nat
  last : Option Descriptor
deriving DecidableEq, Repr

/-- The words of the store in address order. -/
def storeWords {W : Nat} (M : MachineModel W) (s : EngineState W) : List (BitVec W) :=
  (List.range M.wordCount).map (cellRead s.store)

/-- One observation; it changes nothing. -/
def observe {W : Nat} (M : MachineModel W) (s : EngineState W) : Observation W :=
  ⟨s.ci, s.a, storeWords M s, s.halted, s.cycles, s.last⟩

/-- The store rendered, "one line per word in address order" (R18). -/
def renderStore {W : Nat} (M : MachineModel W) (s : EngineState W) : List (List Char) :=
  (storeWords M s).map render

end Sys2Proof.Machine
end

