-- ==== Sys2Proof/Safety.lean ====
section
/-!
DEFINITION. What claims are stated in: the invariant of a machine's state, a running machine, the end of
a run (spec/40_instruction_cycle.md R101), and the part of a state the instructions can depend on.
-/

namespace Sys2Proof.Machine

/-- The invariant of an engine's state in the model `M`: the store in canonical form with every address
below `N` (20_memory.md R40), a positive speed (10_state.md R26), a descriptor only after a completed
cycle, with an address below `N` and an operand inside the address field (R25, 30_encoding.md R65). -/
structure EngineState.Inv {W : Nat} (M : MachineModel W) (s : EngineState W) : Prop where
  store_canonical : Memory.wf M.wordCount s.store = true
  speed_positive : 0 < s.speed
  last_none_iff : s.last = none ↔ s.cycles = 0
  last_in_range : ∀ d, s.last = some d →
    d.address < M.wordCount ∧ d.operand < 2 ^ M.addrLen ∧ d.mnemonic ≠ .num

/-- The invariant of a `Baby32` state: that of the engine, and no fault mark (40_instruction_cycle.md
R100: in `Baby32` no cycle can fault). -/
structure State.Inv (s : State) : Prop where
  engine : EngineState.Inv Config.baby32 s.toEngineState
  no_fault : s.fault = none

/-- The run loop will take a cycle: not cancelled, no fault, not halted (40_instruction_cycle.md R97). -/
structure EngineState.Running {W : Nat} (s : EngineState W) : Prop where
  not_cancelled : s.cancel = false
  no_fault : s.fault = none
  not_halted : s.halted = false

/-- The end of a run (R101): `halted` is true and the state is not a faulted one. -/
abbrev EndOfRun (s : State) : Prop := s.halted = true ∧ s.fault = none

/-- The address the next cycle fetches from, `(to_unsigned(CI) + 1) mod N` (41_control_transfer.md R113). -/
def nextFetch {W : Nat} (M : MachineModel W) (s : EngineState W) : Nat :=
  (s.ci.toNat + 1) % M.wordCount

/-- The instruction the next cycle of a `Baby32` state executes. -/
def nextInstr (s : State) : Except EngineError Instr :=
  decode (cellRead s.store (nextFetch Config.baby32 s.toEngineState))

/-- Two states agree on everything an instruction or the run loop reads: CI, A, the store, `halted`,
`cancel` and the fault mark; the counter, the descriptor and the speed may differ. -/
structure SameMachine (s t : State) : Prop where
  ci : s.ci = t.ci
  a : s.a = t.a
  store : s.store = t.store
  halted : s.halted = t.halted
  cancel : s.cancel = t.cancel
  fault : s.fault = t.fault

/-- The machine of the beginning of a run (40_instruction_cycle.md R101): reset, an image loaded, `halted`
cleared by the host. -/
def startOfRun (image : Memory 32) : State := ⟨(State.reset.setStore image).setHalted false⟩

/-- The run of an image ends after `n` cycles in the state `t` (40_instruction_cycle.md R101): `t` is the
first state since the resume in which `halted` is true again, with no host write in between. -/
structure RunEnds (image : Memory 32) (n : Nat) (t : State) : Prop where
  before : ∀ k < n, ∀ u : State, Host.Core.run Sys2Proof.core k (startOfRun image) = .next u →
    ¬EndOfRun u
  reached : Host.Core.run Sys2Proof.core n (startOfRun image) = .next t
  ended : EndOfRun t

end Sys2Proof.Machine
end

