-- ==== Sys2Proof/Certificates/Slice0/Obligations.lean ====
section
/-!
DEFINITION. The statements for the provers. Each docstring names the rule of spec/ it formalises; where a
clause rests on a decision the spec marks as its own, or on a choice of this model, it says so. `exec` is
the execute step of `Baby32`: CI is CI after step 1 of the cycle.
-/

open Sys2Proof Sys2Proof.Machine

/-! ### Words -/

/-- 00_scope.md R11: in range `from_int` is exact under every policy, bit `i` is `floor(x / 2^i) mod 2`,
and `to_int` gives the integer back. -/
def Obligations.FromIntRoundTripsInRange : Prop :=
  ∀ (policy : OverflowPolicy) (n : Nat) (x : Int), 1 ≤ n → -2 ^ (n - 1) ≤ x → x ≤ 2 ^ (n - 1) - 1 →
    ∃ w, fromInt policy x n = .ok w ∧ w.toInt = x ∧
      ∀ i < n, w.getLsbD i = decide (x / 2 ^ i % 2 = 1)

/-- 00_scope.md R12 (the spec's decision D1): under wrap `from_int` answers for every integer, with the
residue modulo `2^n` as its unsigned value. -/
def Obligations.WrapGivesTheResidue : Prop :=
  ∀ (n : Nat) (x : Int), 1 ≤ n →
    ∃ w, fromInt .wrap x n = .ok w ∧ (w.toNat : Int) = x % 2 ^ n ∧
      w.toInt = (x + 2 ^ (n - 1)) % 2 ^ n - 2 ^ (n - 1)

/-- 43_arithmetic.md R132: LDN, SUB and JRP write `from_int` of their exact integer under the model's
policy; in range the three policies agree; out of range saturate gives the nearer end of the range, and
reject raises `OverflowError` with the exact integer (60_exceptions.md R155). That such a cycle leaves exactly
step 1 done and the sticky fault mark set is the spec's decision D11 (R158, R160), taken as a next state (log
entry 7, DEDUCED). -/
def Obligations.OverflowPoliciesAgreeInRange : Prop :=
  (∀ (W : Nat) (M : MachineModel W) (S : Nat) (s : EngineState W), S < M.wordCount →
    (∀ v, fromInt M.overflow (-(cellRead s.store S).toInt) W = .ok v →
      executeOf M .ldn S s = .ok (s.setA v)) ∧
    (∀ v, fromInt M.overflow (s.a.toInt - (cellRead s.store S).toInt) W = .ok v →
      executeOf M .sub S s = .ok (s.setA v)) ∧
    (∀ v, fromInt M.overflow ((cellRead s.store S).toInt + s.ci.toInt) W = .ok v →
      executeOf M .jrp S s = .ok (s.setCI v)) ∧
    (M.overflow = .reject →
      (¬FitsSigned (-(cellRead s.store S).toInt) W →
        executeOf M .ldn S s = .error (.overflowError (-(cellRead s.store S).toInt))) ∧
      (¬FitsSigned (s.a.toInt - (cellRead s.store S).toInt) W →
        executeOf M .sub S s =
          .error (.overflowError (s.a.toInt - (cellRead s.store S).toInt))) ∧
      (¬FitsSigned ((cellRead s.store S).toInt + s.ci.toInt) W →
        executeOf M .jrp S s =
          .error (.overflowError ((cellRead s.store S).toInt + s.ci.toInt))))) ∧
  (∀ (n : Nat) (x : Int), FitsSigned x n →
    fromInt .saturate x n = fromInt .wrap x n ∧ fromInt .reject x n = fromInt .wrap x n) ∧
  (∀ (n : Nat) (x : Int), 1 ≤ n → 2 ^ (n - 1) - 1 < x →
    ∃ w, fromInt .saturate x n = .ok w ∧ w.toInt = 2 ^ (n - 1) - 1) ∧
  (∀ (n : Nat) (x : Int), 1 ≤ n → x < -2 ^ (n - 1) →
    ∃ w, fromInt .saturate x n = .ok w ∧ w.toInt = -2 ^ (n - 1)) ∧
  (∀ (W : Nat) (M : MachineModel W) (s : EngineState W) (m : Mnemonic) (S : Nat) (x : Int),
    fetchPair M (advanceCI M s) = .ok (m, S) →
    executeOf M m S (advanceCI M s) = .error (.overflowError x) →
    cycleOf M s = (advanceCI M s).setFault (some (.overflowError x)))

/-- 00_scope.md R16 (the range test on the wrapped index is the spec's decision D20): `engrave` past the
end fails, with the index as given in the error (the model's choice, log entry 24); inside, it overwrites exactly the range, and `slice` then gives the engraved word back. -/
def Obligations.EngraveThenSliceGivesTheWordBack : Prop :=
  ∀ (n m : Nat) (w : BitVec n) (index : Int) (other : BitVec m), 1 ≤ n → 1 ≤ m →
    (n < (index % (n : Int)).toNat + m → engrave w index other = .error (.rangeError index m)) ∧
    ((index % (n : Int)).toNat + m ≤ n →
      ∃ w', engrave w index other = .ok w' ∧
        (∀ k < m, w'.getLsbD ((index % (n : Int)).toNat + k) = other.getLsbD k) ∧
        (∀ j, j < (index % (n : Int)).toNat ∨ (index % (n : Int)).toNat + m ≤ j →
          w'.getLsbD j = w.getLsbD j) ∧
        slice w' ((index % (n : Int)).toNat : Int) m = .ok other)

/-- 00_scope.md R14 and R18 (character `k` is bit `k`, the spec's decision D18): a word of `n` bits is written
with the glyphs `0` and `1` as `n` characters, character `k` the glyph of bit `k`; the text is read back as
the same word, and read at another length as none. -/
def Obligations.BitStringsReadBackIndexZeroFirst : Prop :=
  ∀ (n : Nat) (w : BitVec n),
    fromString (renderWith '0' '1' w) n = some w ∧
      (∀ k, k ≠ n → fromString (renderWith '0' '1' w) k = none) ∧
      (renderWith '0' '1' w).length = n ∧
      ∀ k < n, (renderWith '0' '1' w)[k]? = some (if w.getLsbD k then '1' else '0')

/-! ### The store -/

/-- 20_memory.md R42, with the read of R41: a write in range makes that slot a copy of the word and changes
no other slot and nothing else; out of range `BoundsError`; in range another length is `LengthError`. That
a bad address is reported before a bad length is the model's choice (log entry 16). -/
def Obligations.StoreWriteThenReadGivesTheWord : Prop :=
  ∀ (W : Nat) (M : MachineModel W) (s : EngineState W) (a : Nat),
    (a < M.wordCount → ∀ v : BitVec W, ∃ t, memWrite M s a v = .ok t ∧ memRead M t a = .ok v ∧
      (∀ b, b ≠ a → memRead M t b = memRead M s b) ∧ t = s.setStore t.store) ∧
    (a < M.wordCount → ∀ (n : Nat) (v : BitVec n), n ≠ W → memWrite M s a v = .error .lengthError) ∧
    (M.wordCount ≤ a → memRead M s a = .error (.boundsError a) ∧
      ∀ (n : Nat) (v : BitVec n), memWrite M s a v = .error (.boundsError a))

/-- 20_memory.md R43: `clear` makes every slot zero and leaves the address range as it is. -/
def Obligations.ClearZeroesEverySlot : Prop :=
  ∀ (W : Nat) (M : MachineModel W) (s : EngineState W) (a : Nat),
    memRead M (memClear s) a =
      if a < M.wordCount then .ok (zeroWord W) else .error (.boundsError a)

/-! ### Encoding -/

/-- 30_encoding.md R82, first direction, `Baby32` (the spec's derivation): a well-formed instruction
encodes, and its word decodes to it, with the ignored field of CMP and STP as 0. -/
def Obligations.DecodeEncodeRoundTrip : Prop :=
  ∀ i : Instr, i.WellFormed → ∃ w, encode i = .ok w ∧ decode w = .ok i.canonical

/-- 30_encoding.md R82, first direction, for every valid MachineModel (the spec's derivation). -/
def Obligations.EveryModelDecodesWhatItEncodes : Prop :=
  ∀ (W : Nat) (M : MachineModel W), M.Valid → ∀ (m : Mnemonic) (S : Nat),
    m ∈ M.optable.map Prod.snd → S < 2 ^ M.addrLen →
    ∃ w, encodePair M m S = .ok w ∧ decodePair M w = .ok (m, placedOperand M m S)

/-- 30_encoding.md R82, second direction (the spec's derivation): re-encoding a decoded word clears the
unused bits, clears the address field of CMP and STP, and replaces the SUB alias by `001`. -/
def Obligations.ReencodingNormalisesTheWord : Prop :=
  ∀ (w : Word) (i : Instr), decode w = .ok i →
    encode i = .ok
      (if w &&& 0xE000#32 = 0xA000#32 then (w &&& 0x1F#32) ||| 0x8000#32
       else if w &&& 0xE000#32 = 0xC000#32 ∨ w &&& 0xE000#32 = 0xE000#32 then w &&& 0xE000#32
       else w &&& 0xE01F#32)

/-- 30_encoding.md R61, R62, R63 (the layout is the spec's decisions D2, D3): every word decodes, by bits
15..13 alone for the mnemonic and bits 4..0 alone for the operand. -/
def Obligations.EveryWordDecodesByItsTwoFields : Prop :=
  ∀ w : Word, ∃ i : Instr, decode w = .ok i ∧ i.WellFormed ∧ i.operand = w.toNat % 32 ∧
    some i.mnemonic = [Mnemonic.jmp, .jrp, .ldn, .sto, .sub, .sub, .cmp, .stp][w.toNat / 8192 % 8]?

/-- 30_encoding.md R65: for a word of any length, the opcode field first (`RangeError` if the word is too
short for it), then the table (`DecodeError`), then the address field (`RangeError`), read unsigned. -/
def Obligations.DecodingFollowsTheFieldOrder : Prop :=
  ∀ (W : Nat) (M : MachineModel W), M.Valid → ∀ (n : Nat) (w : BitVec n),
    (n < M.opStart + M.opLen → decodePair M w = .error (.rangeError M.opStart M.opLen)) ∧
    (M.opStart + M.opLen ≤ n →
      (M.optable.lookup (w.extractLsb' M.opStart M.opLen) = none →
        decodePair M w = .error (.decodeError (bitList (w.extractLsb' M.opStart M.opLen)))) ∧
      (∀ m, M.optable.lookup (w.extractLsb' M.opStart M.opLen) = some m →
        (n < M.addrStart + M.addrLen →
          decodePair M w = .error (.rangeError M.addrStart M.addrLen)) ∧
        (M.addrStart + M.addrLen ≤ n →
          decodePair M w = .ok (m, w.toNat / 2 ^ M.addrStart % 2 ^ M.addrLen)))) ∧
    (n = W → ∀ start len, decodePair M w ≠ .error (.rangeError start len))

/-- 30_encoding.md R64: two patterns that the table maps to one mnemonic decode alike, to that mnemonic, so
that the execute step, which sees the mnemonic alone, does the same for both. R63: the table of `Baby32` maps
both patterns of SUB to SUB; that `001` and `101` are written index 0 first is the spec's decision D18. -/
def Obligations.AliasedPatternsDecodeAlike : Prop :=
  (∀ (W : Nat) (M : MachineModel W), M.Valid → ∀ (v w : BitVec W) (m : Mnemonic),
    M.optable.lookup (v.extractLsb' M.opStart M.opLen) = some m →
    M.optable.lookup (w.extractLsb' M.opStart M.opLen) = some m →
    v.extractLsb' M.addrStart M.addrLen = w.extractLsb' M.addrStart M.addrLen →
    decodePair M v = decodePair M w ∧ ∃ S, decodePair M v = .ok (m, S)) ∧
  Config.baby32.optable.lookup (fromBits [false, false, true]) = some .sub ∧
  Config.baby32.optable.lookup (fromBits [true, false, true]) = some .sub

/-- A few of the words of 95_test_vectors.md V2, written out from the encoding (layout: the spec's
decisions D2, D3): the decoder reads the instruction each stands for. -/
def Obligations.WrittenOutWordsDecode : Prop :=
  decode 0b00000000000000000000000000010111#32 = .ok (.jmp 23) ∧
  decode 0b00000000000000000010000000001101#32 = .ok (.jrp 13) ∧
  decode 0b00000000000000000100000000001010#32 = .ok (.ldn 10) ∧
  decode 0b00000000000000000110000000000101#32 = .ok (.sto 5) ∧
  decode 0b00000000000000001000000000001011#32 = .ok (.sub 11) ∧
  decode 0b00000000000000001010000000000101#32 = .ok (.sub 5) ∧
  decode 0b00000000000000011100000000000000#32 = .ok (.cmp 0) ∧
  decode 0b11111111111111111111111111111111#32 = .ok (.stp 31)

/-! ### The cycle and the run loop -/

/-- 40_instruction_cycle.md R91: step 1 writes `(to_unsigned(CI) + 1) mod N` to CI and nothing else; the
result is below `N` and all higher bits of CI are 0. -/
def Obligations.StepOneIncrementsModuloTheStore : Prop :=
  ∀ (W : Nat) (M : MachineModel W), M.Valid → ∀ s : EngineState W,
    ∃ c : BitVec W, advanceCI M s = s.setCI c ∧ c.toNat = (s.ci.toNat + 1) % M.wordCount ∧
      c.toNat < M.wordCount ∧ ∀ i, M.wordCount ≤ 2 ^ i → c.getLsbD i = false

/-- 40_instruction_cycle.md R90, R94, R95: when the run loop takes a cycle and the word it fetches decodes
to the well-formed `i`, the step is `exec i` on the state step 1 left, followed by the record of step 5
unless the execute step raised (the descriptor's address is the spec's decision D10). -/
def Obligations.StepRunsTheDecodedInstruction : Prop :=
  ∀ (s : State) (i : Instr), s.Running → nextInstr s = .ok i → i.WellFormed →
    beginCycle s = ⟨s.setCI (BitVec.ofNat 32 (nextFetch Config.baby32 s.toEngineState))⟩ ∧
    step s = finishCycle (descriptorOf (nextFetch Config.baby32 s.toEngineState) i)
      (exec i (beginCycle s)) ∧
    ∀ t : State, exec i (beginCycle s) = .next t →
      (t.fault = none → step s =
        .next ⟨t.record ⟨nextFetch Config.baby32 s.toEngineState, i.mnemonic, i.operand⟩⟩) ∧
      (t.fault ≠ none → step s = .next t)

/-- 40_instruction_cycle.md R97, R102 (a loop that has returned, or idles, is a step to the same state: log
entry 6): a cancelled machine keeps its state, whatever else holds, and that is no error; a halted one
idles; setting `cancel` changes nothing else and makes no end of run. -/
def Obligations.CancelAndHaltKeepTheState : Prop :=
  ∀ s : State,
    (s.cancel = true → step s = .next s) ∧
    (s.halted = true → s.fault = none → step s = .next s) ∧
    (∀ b, hostEvent (.setCancel b) s = .next ⟨s.setCancel b⟩) ∧
    (EndOfRun ⟨s.setCancel true⟩ ↔ EndOfRun s)

/-- 40_instruction_cycle.md R90, R97: the step of `Baby32`, which runs `exec`, is the loop of the engine of
any MachineModel taken at `Baby32`, for every state; so the generic rules (faults among them) and the
instruction statements speak of one machine. -/
def Obligations.StepIsTheGenericLoopAtBaby32 : Prop :=
  ∀ s : State,
    (∀ e, loopOf Config.baby32 s.toEngineState = .next e → step s = .next ⟨e⟩) ∧
    (∀ r, loopOf Config.baby32 s.toEngineState = .fault r → step s = .fault r) ∧
    (∀ r, loopOf Config.baby32 s.toEngineState = .refused r → step s = .refused r)

/-- 40_instruction_cycle.md R95, 10_state.md R24, R25 (the descriptor's address is the spec's decision D10),
every model: a cycle with no fault counts once and records the fetch address, the mnemonic and the raw
address field; one that faults does neither. -/
def Obligations.CompletedCyclesAreRecorded : Prop :=
  ∀ (W : Nat) (M : MachineModel W), M.Valid → ∀ s : EngineState W, s.fault = none →
    ((cycleOf M s).fault = none →
      (cycleOf M s).cycles = s.cycles + 1 ∧
      ∃ m S, decodePair M (cellRead s.store (nextFetch M s)) = .ok (m, S) ∧
        (cycleOf M s).last = some ⟨nextFetch M s, m, S⟩) ∧
    ((cycleOf M s).fault ≠ none →
      (cycleOf M s).cycles = s.cycles ∧ (cycleOf M s).last = s.last)

/-! ### Errors -/

/-- 60_exceptions.md R151, every model: a fetched word whose pattern is no key aborts the cycle in step 3,
whatever A and the operand: CI is incremented and nothing else changes, and the run loop then takes no further
cycle. That the error stands in a sticky fault mark is the spec's decision D11 (R158, R160); that it is a next
state, and the later answer `engineFaulted`, are the model's (log entry 7, DEDUCED). -/
def Obligations.UnknownPatternAbortsTheCycle : Prop :=
  ∀ (W : Nat) (M : MachineModel W), M.Valid → ∀ s : EngineState W, s.Running →
    M.optable.lookup ((cellRead s.store (nextFetch M s)).extractLsb' M.opStart M.opLen) = none →
    ∃ e : EngineError,
      e = .decodeError
        (bitList ((cellRead s.store (nextFetch M s)).extractLsb' M.opStart M.opLen)) ∧
      loopOf M s = .next ((advanceCI M s).setFault (some e)) ∧
      loopOf M ((advanceCI M s).setFault (some e)) = .fault (.engineFaulted e)

/-- 70_reset_and_hazards.md R193 and the `BoundsError` of 60_exceptions.md R152: JMP, JRP, LDN, STO, SUB with
an operand beyond the store abort the cycle; the assembler turns an address-typed operand beyond the store
away (30_encoding.md R76); in `Baby32` no word carries one. That the aborted cycle leaves exactly step 1 done
and the fault mark set is the spec's decision D11 (R158, R159), taken as a next state (log entry 7). -/
def Obligations.OperandsBeyondTheStoreFault : Prop :=
  (∀ (W : Nat) (M : MachineModel W) (s : EngineState W) (m : Mnemonic) (S : Nat),
    m ∈ [Mnemonic.jmp, .jrp, .ldn, .sto, .sub] → M.wordCount ≤ S →
    fetchPair M (advanceCI M s) = .ok (m, S) →
    cycleOf M s = (advanceCI M s).setFault (some (.boundsError S))) ∧
  (∀ (W : Nat) (M : MachineModel W) (m : Mnemonic) (text : List Char) (S : Nat),
    m ≠ .num → m ∈ M.needsOperand → m ∈ M.addrTyped → parseNat text = some S → M.wordCount ≤ S →
    assembleOperand M m [text] = .error .operandNotStoreAddress) ∧
  (∀ (w : Word) (i : Instr), decode w = .ok i → i.operand < Config.baby32.wordCount)

/-- 60_exceptions.md R152 at `exec`: an operand that names no store word is an error taken in the state, and
the state is otherwise unchanged (the fault mark is the spec's decision D11). -/
def Obligations.ExecBeyondTheStoreSetsTheFaultMark : Prop :=
  ∀ (S : Nat) (s : State), 32 ≤ S →
    exec (.jmp S) s = .next ⟨s.setFault (some (.boundsError S))⟩ ∧
    exec (.jrp S) s = .next ⟨s.setFault (some (.boundsError S))⟩ ∧
    exec (.ldn S) s = .next ⟨s.setFault (some (.boundsError S))⟩ ∧
    exec (.sto S) s = .next ⟨s.setFault (some (.boundsError S))⟩ ∧
    exec (.sub S) s = .next ⟨s.setFault (some (.boundsError S))⟩

/-- 60_exceptions.md R158, R159 (the spec's decision D11 and derivation), every model: a cycle that faults
leaves exactly step 1 done and the fault mark set. -/
def Obligations.AbortedCycleLeavesOnlyStepOne : Prop :=
  ∀ (W : Nat) (M : MachineModel W) (s : EngineState W), s.fault = none →
    (cycleOf M s).fault ≠ none → ∃ e, cycleOf M s = (advanceCI M s).setFault (some e)

/-- 60_exceptions.md R160 (the spec's decision D11; log entry 7): while the fault mark is set neither the
loop nor a manual step takes a cycle, and the state is no end of a run. -/
def Obligations.FaultedEngineTakesNoCycle : Prop :=
  ∀ (s : State) (e : EngineError), s.fault = some e →
    (s.cancel = false → step s = .fault (.engineFaulted e)) ∧
    hostEvent .manualStep s = .fault (.engineFaulted e) ∧ ¬EndOfRun s

/-- 40_instruction_cycle.md R100 (the spec's derivation), every model: with every pattern mapped, every
operand a store address and no reject policy, no cycle faults. -/
def Obligations.FullModelsNeverFault : Prop :=
  ∀ (W : Nat) (M : MachineModel W), M.Valid → (∀ p, M.optable.lookup p ≠ none) →
    2 ^ M.addrLen ≤ M.wordCount → M.overflow ≠ .reject →
    ∀ s : EngineState W, s.fault = none → (cycleOf M s).fault = none

/-- 40_instruction_cycle.md R100 (the spec's derivation): in `Baby32` every step from a state with no fault
mark answers a next state with no fault mark. -/
def Obligations.Baby32NeverFaults : Prop :=
  ∀ s : State, s.fault = none → ∃ t, step s = .next t ∧ t.fault = none

/-! ### Instructions: the execute step -/

/-- 41_control_transfer.md R110: JMP copies all bits of `Store[S]` to CI and changes nothing else; out of the
store it raises `BoundsError(S)` with CI kept; its word is `S`; the next fetch is from
`(to_unsigned(Store[S]) + 1) mod N`. -/
def Obligations.JmpCopiesTheStoreWordToCI : Prop :=
  (∀ (S : Nat) (s : State), S < 32 →
    exec (.jmp S) s = .next ⟨s.setCI (cellRead s.store S)⟩ ∧
    nextFetch Config.baby32 (s.setCI (cellRead s.store S)) = ((cellRead s.store S).toNat + 1) % 32) ∧
  (∀ (W : Nat) (M : MachineModel W) (S : Nat) (s : EngineState W), M.wordCount ≤ S →
    executeOf M .jmp S s = .error (.boundsError S) ∧
    (fetchPair M (advanceCI M s) = .ok (.jmp, S) → (cycleOf M s).ci = (advanceCI M s).ci)) ∧
  (∀ S, S < 32 → encode (.jmp S) = .ok (BitVec.ofNat 32 S) ∧
    decode (BitVec.ofNat 32 S) = .ok (.jmp S))

/-- 41_control_transfer.md R111, 43_arithmetic.md R131 (wrap is the spec's decision D1): JRP adds `Store[S]`
to CI modulo `2^32` and changes nothing else; when the signed sum fits, CI reads as exactly that sum. -/
def Obligations.JrpAddsTheStoreWordToCI : Prop :=
  ∀ (S : Nat) (s : State), S < 32 →
    exec (.jrp S) s = .next ⟨s.setCI (cellRead s.store S + s.ci)⟩ ∧
    (FitsSigned ((cellRead s.store S).toInt + s.ci.toInt) 32 →
      (cellRead s.store S + s.ci).toInt = (cellRead s.store S).toInt + s.ci.toInt)

/-- 42_load_store.md R120, 43_arithmetic.md R131 (wrap is the spec's decision D1): LDN writes the negated
word to A and changes nothing else; but for `MIN_W`, which stays `MIN_W`, the negation is exact. -/
def Obligations.LdnNegatesTheStoreWordIntoA : Prop :=
  ∀ (S : Nat) (s : State), S < 32 →
    exec (.ldn S) s = .next ⟨s.setA (-(cellRead s.store S))⟩ ∧
    ((cellRead s.store S).toInt ≠ -2147483648 →
      (-(cellRead s.store S)).toInt = -(cellRead s.store S).toInt) ∧
    (cellRead s.store S = 0x80000000#32 → -(cellRead s.store S) = 0x80000000#32)

/-- 43_arithmetic.md R130, R131 (wrap is the spec's decision D1): SUB subtracts `Store[S]` from A modulo
`2^32` and changes nothing else; when the signed difference fits, A reads as exactly that difference. -/
def Obligations.SubSubtractsTheStoreWordFromA : Prop :=
  ∀ (S : Nat) (s : State), S < 32 →
    exec (.sub S) s = .next ⟨s.setA (s.a - cellRead s.store S)⟩ ∧
    (FitsSigned (s.a.toInt - (cellRead s.store S).toInt) 32 →
      (s.a - cellRead s.store S).toInt = s.a.toInt - (cellRead s.store S).toInt)

/-- 42_load_store.md R121: STO makes `Store[S]` a copy of A, leaves every other word, CI, A and every other
item unchanged, raises `BoundsError(S)` out of the store with no word changed, and its word is
`0x6000 + S`. -/
def Obligations.StoCopiesAToTheStore : Prop :=
  (∀ (S : Nat) (s : State), S < 32 → ∃ t : State, exec (.sto S) s = .next t ∧
    cellRead t.store (effectiveAddress S) = s.a ∧
    (∀ b, b ≠ effectiveAddress S → cellRead t.store b = cellRead s.store b) ∧
    t = ⟨s.setStore t.store⟩) ∧
  (∀ (W : Nat) (M : MachineModel W) (S : Nat) (s : EngineState W), M.wordCount ≤ S →
    executeOf M .sto S s = .error (.boundsError S) ∧
    (fetchPair M (advanceCI M s) = .ok (.sto, S) → (cycleOf M s).store = s.store)) ∧
  (∀ S, S < 32 → encode (.sto S) = .ok (BitVec.ofNat 32 (0x6000 + S)) ∧
    decode (BitVec.ofNat 32 (0x6000 + S)) = .ok (.sto S))

/-- 41_control_transfer.md R112: CMP moves CI one extra position exactly when bit 31 of A is set, changes
nothing else and ignores its address field; the next fetch is from `a + 2` or `a + 1` modulo `N` and the
counter counts the CMP alone; its word is `0xC000`, with any address field. -/
def Obligations.CmpSkipsWhenAIsNegative : Prop :=
  (∀ (S : Nat) (s : State),
    (s.a.toInt < 0 → exec (.cmp S) s = .next ⟨s.setCI (BitVec.ofNat 32 ((s.ci.toNat + 1) % 32))⟩) ∧
    (0 ≤ s.a.toInt → exec (.cmp S) s = .next s) ∧
    (s.a.toInt < 0 ↔ s.a.getLsbD 31 = true)) ∧
  (∀ (S : Nat) (s : State), s.Running → nextInstr s = .ok (.cmp S) →
    ∃ t, step s = .next t ∧ t.cycles = s.cycles + 1 ∧
      nextFetch Config.baby32 t.toEngineState =
        (nextFetch Config.baby32 s.toEngineState + if s.a.toInt < 0 then 2 else 1) % 32) ∧
  (∀ S, S < 32 → encode (.cmp S) = .ok 0xC000#32 ∧ decode (BitVec.ofNat 32 (0xC000 + S)) = .ok (.cmp S))

/-- 44_stop_and_data.md R140: STP sets `halted`, changes nothing else and ignores its address field; step 5
still runs; the loop then takes no cycle until the host clears the flag, after which the next fetch is from
`(a + 1) mod N`; no other instruction writes the flag; its word is `0xE000`, with any address field and any
unused bits. -/
def Obligations.StpHaltsTheMachine : Prop :=
  (∀ (S : Nat) (s : State), exec (.stp S) s = .next ⟨s.setHalted true⟩) ∧
  (∀ (S : Nat) (s : State), s.Running → nextInstr s = .ok (.stp S) →
    ∃ t, step s = .next t ∧ t.halted = true ∧ t.a = s.a ∧ t.store = s.store ∧
      t.ci.toNat = nextFetch Config.baby32 s.toEngineState ∧ t.cycles = s.cycles + 1 ∧
      t.last = some ⟨nextFetch Config.baby32 s.toEngineState, .stp, S⟩ ∧ step t = .next t ∧
      hostEvent (.setHalted false) t = .next ⟨t.setHalted false⟩ ∧
      nextFetch Config.baby32 (t.setHalted false) =
        (nextFetch Config.baby32 s.toEngineState + 1) % 32) ∧
  (∀ s t : State, step s = .next t → t.halted ≠ s.halted → ∃ S, nextInstr s = .ok (.stp S)) ∧
  (∀ S, S < 32 → encode (.stp S) = .ok 0xE000#32) ∧
  (∀ w : Word, w &&& 0xE000#32 = 0xE000#32 → decode w = .ok (.stp (w.toNat % 32)))

/-! ### Instructions: whole steps -/

/-- 70_reset_and_hazards.md R187: a JMP continues at `T` exactly when the word it addresses is congruent to
`T - 1` modulo `N`. -/
def Obligations.JmpTargetsAreOneLess : Prop :=
  ∀ (S T : Nat) (s : State), T < 32 → s.Running → nextInstr s = .ok (.jmp S) →
    ∃ t, step s = .next t ∧
      (nextFetch Config.baby32 t.toEngineState = T ↔
        (cellRead s.store S).toNat % 32 = (T + 31) % 32)

/-- 70_reset_and_hazards.md R188: a JRP at address `a` with the signed offset `d` continues at
`(a + d + 1) mod N`; 0 continues at the next address, −1 loops on the JRP, −2 takes the one before it. -/
def Obligations.JrpIsRelativeToItsOwnAddress : Prop :=
  ∀ (S : Nat) (s : State), s.Running → nextInstr s = .ok (.jrp S) →
    ∃ t, step s = .next t ∧
      (nextFetch Config.baby32 t.toEngineState : Int) =
        (nextFetch Config.baby32 s.toEngineState + (cellRead s.store S).toInt + 1) % 32 ∧
      ((cellRead s.store S).toInt = 0 → nextFetch Config.baby32 t.toEngineState =
        (nextFetch Config.baby32 s.toEngineState + 1) % 32) ∧
      ((cellRead s.store S).toInt = -1 → nextFetch Config.baby32 t.toEngineState =
        nextFetch Config.baby32 s.toEngineState) ∧
      ((cellRead s.store S).toInt = -2 → nextFetch Config.baby32 t.toEngineState =
        (nextFetch Config.baby32 s.toEngineState + 31) % 32)

/-- 41_control_transfer.md R113: no control transfer changes A, the store or `halted`; each completes, with
any target, and the next fetch address is the new CI plus one modulo `N`, inside the store. -/
def Obligations.TransfersLeaveAAndTheStore : Prop :=
  ∀ (S : Nat) (i : Instr) (s : State), i ∈ [Instr.jmp S, .jrp S, .cmp S] → s.Running →
    nextInstr s = .ok i →
    ∃ t : State, step s = .next t ∧ t.fault = none ∧ t.a = s.a ∧ t.store = s.store ∧
      t.halted = s.halted ∧
      nextFetch Config.baby32 t.toEngineState = (t.ci.toNat + 1) % 32 ∧
      nextFetch Config.baby32 t.toEngineState < 32

/-- 70_reset_and_hazards.md R190: CI wraps from 31 to 0; a taken CMP at 30 continues at 0 and at 31 at 1; a
JMP or a JRP may leave a CI outside the store; only the residue of CI modulo `N` affects execution, and a JRP
adds to CI as step 1 reduced it. -/
def Obligations.OnlyTheResidueOfCIMatters : Prop :=
  (∀ s : State, s.ci.toNat = 31 → nextFetch Config.baby32 s.toEngineState = 0) ∧
  (∀ (S : Nat) (s : State), s.Running → nextInstr s = .ok (.cmp S) → s.a.toInt < 0 →
    ∃ t, step s = .next t ∧
      (nextFetch Config.baby32 s.toEngineState = 30 →
        nextFetch Config.baby32 t.toEngineState = 0) ∧
      (nextFetch Config.baby32 s.toEngineState = 31 →
        nextFetch Config.baby32 t.toEngineState = 1)) ∧
  (∀ (S : Nat) (s : State), s.Running → nextInstr s = .ok (.jmp S) →
    ∃ t, step s = .next t ∧ t.ci = cellRead s.store S) ∧
  (∀ (S : Nat) (s : State), s.Running → nextInstr s = .ok (.jrp S) →
    FitsSigned ((cellRead s.store S).toInt + nextFetch Config.baby32 s.toEngineState) 32 →
    ∃ t, step s = .next t ∧
      t.ci.toInt = (cellRead s.store S).toInt + nextFetch Config.baby32 s.toEngineState) ∧
  (∀ (s : State) (c : Word), s.Running → c.toNat % 32 = s.ci.toNat % 32 →
    step ⟨s.setCI c⟩ = step s)

/-- 20_memory.md R52, 70_reset_and_hazards.md R189: the word a cycle stores is the word the very next fetch
from that address reads, and the cycle that stored over its own address has run the word fetched before. -/
def Obligations.StoredWordsAreFetchedAtOnce : Prop :=
  ∀ (S : Nat) (s : State), s.Running → nextInstr s = .ok (.sto S) →
    ∃ t, step s = .next t ∧ t.last = some ⟨nextFetch Config.baby32 s.toEngineState, .sto, S⟩ ∧
      (nextFetch Config.baby32 t.toEngineState = S → nextInstr t = decode s.a) ∧
      (nextFetch Config.baby32 t.toEngineState ≠ S →
        nextInstr t = decode (cellRead s.store (nextFetch Config.baby32 t.toEngineState)))

/-- 10_state.md R20 (the column "written by"), R22, R23, R31, R34: of all a step can do, only LDN and SUB
change A, only STO the store and at one word, only STP `halted`, and it sets it; no step writes `speed` or
`cancel`; but for JMP and JRP the new CI is below `N`. -/
def Obligations.OnlyTheNamedInstructionsWrite : Prop :=
  ∀ s t : State, step s = .next t →
    (t.a ≠ s.a → ∃ S, nextInstr s = .ok (.ldn S) ∨ nextInstr s = .ok (.sub S)) ∧
    (t.store ≠ s.store → ∃ S, nextInstr s = .ok (.sto S) ∧
      ∀ b, b ≠ S → cellRead t.store b = cellRead s.store b) ∧
    (t.halted ≠ s.halted → t.halted = true ∧ ∃ S, nextInstr s = .ok (.stp S)) ∧
    t.speed = s.speed ∧ t.cancel = s.cancel ∧
    (32 ≤ t.ci.toNat → t.ci ≠ s.ci → ∃ S, nextInstr s = .ok (.jmp S) ∨ nextInstr s = .ok (.jrp S))

/-- 40_instruction_cycle.md R101 (the spec's decision D25): a step of the running machine ends the run
exactly when the instruction it runs is STP. -/
def Obligations.RunsEndExactlyAtStp : Prop :=
  ∀ s t : State, s.Running → step s = .next t →
    (EndOfRun t ↔ ∃ S, nextInstr s = .ok (.stp S))

/-- 40_instruction_cycle.md R101 (the spec's decision D25), every image: where a run ends, CI holds the address
the STP was fetched from, `cycles` counts every cycle, the STP's too, and `last` is that address, STP and
its address field; the word at that address is an STP. -/
def Obligations.TheEndOfARunIsAtAnStp : Prop :=
  ∀ (image : Memory 32) (n : Nat) (t : State), RunEnds image n t →
    1 ≤ n ∧ t.cycles = n ∧ t.cancel = false ∧
    ∃ S, t.last = some ⟨t.ci.toNat, .stp, S⟩ ∧ t.ci.toNat < 32 ∧
      decode (cellRead t.store t.ci.toNat) = .ok (.stp S)

/-- 10_state.md R24, R25, R26: no step reads the counter, the descriptor or the speed: two states that differ
only there step alike, and stay alike in all the rest. -/
def Obligations.ObserverItemsAreNeverRead : Prop :=
  ∀ s t s' : State, SameMachine s t → step s = .next s' →
    ∃ t', step t = .next t' ∧ SameMachine s' t'

/-! ### Invariants -/

/-- 10_state.md R32 and 70_reset_and_hazards.md R180 (that the registers are zero is the spec's decision D8;
`speed` 1 is this model's, log entry 4): the machine after reset is halted, with a zero store, and its
first fetch is from address 1. -/
def Obligations.ResetIsHaltedAndZero : Prop :=
  State.reset.halted = true ∧ (∀ a, cellRead State.reset.store a = 0#32) ∧
  State.reset.ci = 0#32 ∧ State.reset.a = 0#32 ∧ State.reset.cycles = 0 ∧ State.reset.last = none ∧
  State.reset.cancel = false ∧ State.reset.fault = none ∧ 0 < State.reset.speed ∧
  nextFetch Config.baby32 State.reset.toEngineState = 1

/-- The invariant of `Baby32` holds after reset (10_state.md R32). -/
def Obligations.ResetMeetsTheInvariant : Prop := State.reset.Inv

/-- Every step of `Baby32` keeps the invariant: the store canonical and inside `[0, N)`, a positive speed, a
descriptor exactly after a completed cycle and in range, no fault mark. -/
def Obligations.EveryStepKeepsTheInvariant : Prop :=
  ∀ s t : State, s.Inv → step s = .next t → t.Inv

/-- Every move of the system keeps it too: the run loop, the control inputs, the manual step, `load` of any
text, `clear_memory`, `clear_state`. -/
def Obligations.EveryHostMoveKeepsTheInvariant : Prop :=
  ∀ (x : Move) (s t : State), s.Inv → move x s = .next t → t.Inv

/-- The cycle of every valid MachineModel keeps the engine's invariant, a faulting cycle too. -/
def Obligations.EveryModelKeepsTheEngineInvariant : Prop :=
  ∀ (W : Nat) (M : MachineModel W), M.Valid → ∀ s : EngineState W,
    EngineState.Inv M s → EngineState.Inv M (cycleOf M s)

/-- Every move of every valid MachineModel keeps the engine's invariant: the run loop, a cycle that faults, and
each host operation with a load of any text. -/
def Obligations.EveryModelMoveKeepsTheEngineInvariant : Prop :=
  ∀ (W : Nat) (M : MachineModel W), M.Valid → ∀ (x : Move) (s t : EngineState W),
    EngineState.Inv M s → moveOf M x s = .next t → EngineState.Inv M t

/-! ### The host's operations -/

/-- 00_scope.md R5 (the spec's decision D7): construction refuses exactly the models that break a
constraint, and otherwise gives the reset state. That a table with a repeated key is among the refused is no
constraint of R5 or D7 but the model's reading of R4, "finite map" (log entry 15, DEDUCED). -/
def Obligations.ConstructionRefusesExactlyBadModels : Prop :=
  ∀ (W : Nat) (M : MachineModel W),
    (M.Valid → newMachine M = .next (EngineState.initial W)) ∧
    (¬M.Valid → newMachine M = .refused .invalidModel)

/-- 30_encoding.md R75, R76, one pass of either loader: an error is recorded for every bad line and for every
good line beyond the store, and every recorded error is the error of such a line; with no error the image
holds each line's word at its slot and zero everywhere else. That a line is named by its running count, with
one error, is the model's choice (log entry 13). -/
def Obligations.LoadPassIsCompleteAndExact : Prop :=
  ∀ (W N : Nat) (wordOf : Nat → List Char → Except LoadError (BitVec W)) (lines : List (List Char)),
    (∀ k line e, lines[k]? = some line → wordOf k line = .error e →
      (k, e) ∈ (loadPass N wordOf lines 0 []).2) ∧
    (∀ k line w, lines[k]? = some line → wordOf k line = .ok w → N ≤ k →
      (k, .tooManyLines) ∈ (loadPass N wordOf lines 0 []).2) ∧
    (∀ k e, (k, e) ∈ (loadPass N wordOf lines 0 []).2 → ∃ line, lines[k]? = some line ∧
      (wordOf k line = .error e ∨ (N ≤ k ∧ e = .tooManyLines ∧ ∃ w, wordOf k line = .ok w))) ∧
    ((∀ k line, lines[k]? = some line → k < N ∧ ∃ w, wordOf k line = .ok w) →
      (loadPass N wordOf lines 0 []).2 = []) ∧
    ((loadPass N wordOf lines 0 []).2 = [] →
      (∀ k line, lines[k]? = some line →
        wordOf k line = .ok (cellRead (loadPass N wordOf lines 0 []).1 k)) ∧
      ∀ k, lines.length ≤ k → cellRead (loadPass N wordOf lines 0 []).1 k = 0#W)

/-- 30_encoding.md R79, both loaders (that a load is admitted only while halted is the spec's decision D17; only
with no fault, log entry 11; that a line is named by its running count, log entry 13): any bad line makes the load fail with an error list that names it, and the
machine is unchanged; with none, the store becomes the image, each listed line's word at its address and
zero at every other, whatever the store held, and nothing else changes. -/
def Obligations.LoadIsAllOrNothing : Prop :=
  ∀ (source : List Char) (wordOf : Nat → List Char → Except LoadError Word) (s : State),
    (detectFormat (meaningfulLines source) = .assemblyText ∧ wordOf = assembleLine Config.baby32) ∨
      (detectFormat (meaningfulLines source) = .binaryDump ∧ wordOf = dumpLine) →
    s.fault = none → s.halted = true →
    (∀ k line, (meaningfulLines source)[k]? = some line → (∃ e, wordOf k line = .error e) ∨ 32 ≤ k →
      (∃ errors e, loadImage Config.baby32 source = .error errors ∧ (k, e) ∈ errors) ∧
      hostEvent (.load source) s = .next s) ∧
    ((∀ k line, (meaningfulLines source)[k]? = some line → k < 32 ∧ ∃ w, wordOf k line = .ok w) →
      ∃ image, loadImage Config.baby32 source = .ok image ∧
        hostEvent (.load source) s = .next ⟨s.setStore image⟩ ∧
        (∀ k line, (meaningfulLines source)[k]? = some line →
          wordOf k line = .ok (cellRead image k)) ∧
        ∀ k, (meaningfulLines source).length ≤ k → cellRead image k = 0#32)

/-- 30_encoding.md R77 and 70_reset_and_hazards.md R184 (the spec's decisions D16, D17, and the host duties of
92_eei_decisions.md: log entry 11): a text of no known format changes nothing; a load, a clear or a manual
step asked for while running has no move, nor has a load or a clear after a fault. -/
def Obligations.RequestsOutsideTheirStateAreRefused : Prop :=
  (∀ (source : List Char) (s : State), detectFormat (meaningfulLines source) = .unknown →
    s.fault = none → s.halted = true → hostEvent (.load source) s = .next s) ∧
  (∀ (e : HostEvent) (s : State), e = .clearMemory ∨ e = .clearState ∨ (∃ source, e = .load source) →
    (s.fault = none → s.halted = false → hostEvent e s = .refused .hostOperationWhileRunning) ∧
    (s.fault ≠ none → hostEvent e s = .refused .usedAfterFault)) ∧
  (∀ s : State, s.fault = none → s.halted = false →
    hostEvent .manualStep s = .refused .stepWhileRunning)

/-- 70_reset_and_hazards.md R185, R186 (only while halted, and the counter and descriptor kept, are the
spec's decisions D17, D21): `clear_memory` zeroes the store alone, `clear_state` CI and A alone. -/
def Obligations.ClearsTouchOnlyTheirOwn : Prop :=
  ∀ s : State, s.fault = none → s.halted = true →
    (∃ t : State, hostEvent .clearMemory s = .next t ∧ (∀ a, cellRead t.store a = 0#32) ∧
      t = ⟨s.setStore t.store⟩) ∧
    (∃ t : State, hostEvent .clearState s = .next t ∧ t = ⟨(s.setCI 0#32).setA 0#32⟩ ∧
      nextFetch Config.baby32 t.toEngineState = 1)

/-- 40_instruction_cycle.md R98 (only while halted: the spec's decision D16): a manual step is one cycle,
the same a running machine would take, and the machine is still halted afterwards. -/
def Obligations.ManualStepIsOneCycleAndStaysHalted : Prop :=
  ∀ s : State, s.fault = none → s.halted = true →
    ∃ t u : State, hostEvent .manualStep s = .next t ∧ t.halted = true ∧ t.cycles = s.cycles + 1 ∧
      step ⟨(s.setHalted false).setCancel false⟩ = .next u ∧
      t = ⟨(u.setHalted true).setCancel s.cancel⟩

/-- 60_exceptions.md R162, 40_instruction_cycle.md R99 (a speed that is not positive is refused: U11): each
control input is written alone, at any time; a pause stops the very next cycle and a resume continues at
`(to_unsigned(CI) + 1) mod N`. -/
def Obligations.ControlInputsAreWrittenAlone : Prop :=
  ∀ (s : State) (b : Bool) (q : Rat),
    hostEvent (.setHalted b) s = .next ⟨s.setHalted b⟩ ∧
    hostEvent (.setCancel b) s = .next ⟨s.setCancel b⟩ ∧
    (0 < q → hostEvent (.setSpeed q) s = .next ⟨s.setSpeed q⟩) ∧
    (q ≤ 0 → hostEvent (.setSpeed q) s = .refused .nonPositiveSpeed) ∧
    (s.fault = none → step ⟨s.setHalted true⟩ = .next ⟨s.setHalted true⟩) ∧
    nextInstr ⟨s.setHalted false⟩ = nextInstr s

/-- 70_reset_and_hazards.md R182 (the spec's derivation): the first instruction of a run is the word of the
image at address 1. -/
def Obligations.TheEntryPointIsAddressOne : Prop :=
  ∀ image : Memory 32, (startOfRun image).Running ∧
    nextInstr (startOfRun image) = decode (cellRead image 1) ∧
    (beginCycle (startOfRun image)).ci = 1#32

/-- 40_instruction_cycle.md R103, every MachineModel (only while halted: the spec's decisions D16, D17; the run
operation one iteration a move: log entry 6): on a machine with no fault, halted, `step` is one cycle,
`clear_memory` zeroes the store alone, `clear_state` CI and A alone (D21) with the next fetch from 1, and the
run operation idles; running, it takes a cycle, and the other three have no move. -/
def Obligations.EveryVariantOffersTheFourOperations : Prop :=
  ∀ (W : Nat) (M : MachineModel W) (s : EngineState W), s.fault = none →
    (s.halted = true →
      moveOf M MachineOp.step.move s = .next (cycleOf M s) ∧
      moveOf M MachineOp.runUntilHaltOrCancel.move s = .next s ∧
      (∃ t, moveOf M MachineOp.clearMemory.move s = .next t ∧ t = s.setStore t.store ∧
        ∀ a < M.wordCount, memRead M t a = .ok (zeroWord W)) ∧
      ∃ t, moveOf M MachineOp.clearState.move s = .next t ∧
        t = (s.setCI (zeroWord W)).setA (zeroWord W) ∧ nextFetch M t = 1 % M.wordCount) ∧
    (s.halted = false →
      (s.cancel = false →
        moveOf M MachineOp.runUntilHaltOrCancel.move s = .next (cycleOf M s)) ∧
      (s.cancel = true → moveOf M MachineOp.runUntilHaltOrCancel.move s = .next s) ∧
      moveOf M MachineOp.step.move s = .refused .stepWhileRunning ∧
      moveOf M MachineOp.clearMemory.move s = .refused .hostOperationWhileRunning ∧
      moveOf M MachineOp.clearState.move s = .refused .hostOperationWhileRunning)

/-- 40_instruction_cycle.md R103: every move of `Baby32`, its manual step and run loop through `exec`, is the
move of the engine of any MachineModel taken at `Baby32`, in every state. -/
def Obligations.Baby32MovesAreTheGenericOnes : Prop :=
  ∀ (x : Move) (s : State), move x s = ofEngine (moveOf Config.baby32 x s.toEngineState)
end

