-- ==== Sys2Proof/Laws/Bits.lean ====
section
/-!
SUPPORT. What the word primitives can do (spec/00_scope.md R11 to R16).
-/

namespace Sys2Proof.Machine

variable {n m : Nat}

/-! ### `from_int` -/

theorem fromInt_of_fits {x : Int} (h : FitsSigned x n) (policy : OverflowPolicy) :
    fromInt policy x n = .ok (wrapInt x n) := if_pos h

/-- Under wrap `from_int` always answers the word of the residue (R12). -/
theorem fromInt_wrap (x : Int) (n : Nat) : fromInt .wrap x n = .ok (wrapInt x n) := by
  unfold fromInt
  split <;> rfl

theorem fromInt_reject_of_not_fits {x : Int} (h : ¬FitsSigned x n) :
    fromInt .reject x n = .error (.overflowError x) := if_neg h

/-- The only error of `from_int` is the overflow of its exact integer, under reject (60_exceptions.md R155). -/
theorem fromInt_error {policy : OverflowPolicy} {x : Int} {e : EngineError}
    (h : fromInt policy x n = .error e) :
    policy = .reject ∧ ¬FitsSigned x n ∧ e = .overflowError x := by
  unfold fromInt at h
  split at h
  · cases h
  · next hx =>
    cases policy
    · cases h
    · cases h
    · exact ⟨rfl, hx, (Except.error.inj h).symm⟩

/-! ### `from_unsigned` -/

theorem fromUnsigned_of_lt {y : Nat} (h : y < 2 ^ n) : fromUnsigned y n = BitVec.ofNat n y := if_pos h

theorem fromUnsigned_toNat {y : Nat} (h : y < 2 ^ n) : (fromUnsigned y n).toNat = y := by
  rw [fromUnsigned_of_lt h, BitVec.toNat_ofNat, Nat.mod_eq_of_lt h]

/-! ### `slice` and `engrave` -/

theorem slice_of_inside {w : BitVec n} {start len : Nat} (h₁ : 1 ≤ len) (h₂ : start + len ≤ n) :
    slice w start len = .ok (w.extractLsb' start len) := by
  have h : (0 : Int) ≤ start ∧ 1 ≤ len ∧ (start : Int) + len ≤ n := ⟨by omega, h₁, by omega⟩
  simp [slice, h]

theorem slice_of_outside {w : BitVec n} {start len : Nat} (h : n < start + len) :
    slice w start len = .error (.rangeError start len) := by
  have h : ¬((0 : Int) ≤ start ∧ 1 ≤ len ∧ (start : Int) + len ≤ n) := by omega
  rw [slice, if_neg h]

/-- The bits of a splice: the new word's inside the range, the old word's outside. -/
theorem splice_getLsbD (w : BitVec n) (i : Nat) (other : BitVec m) (hi : i + m ≤ n) (j : Nat) :
    (splice w i other).getLsbD j =
      if i ≤ j ∧ j < i + m then other.getLsbD (j - i) else w.getLsbD j := by
  unfold splice
  simp only [BitVec.getLsbD_or, BitVec.getLsbD_and, BitVec.getLsbD_not, BitVec.getLsbD_shiftLeft,
    BitVec.getLsbD_setWidth, BitVec.getLsbD_allOnes]
  by_cases h₁ : i ≤ j
  · by_cases h₂ : j < i + m
    · have a₁ : j < n := by omega
      have a₂ : j - i < m := by omega
      have a₃ : ¬j < i := by omega
      have a₄ : j - i < n := by omega
      simp [h₁, h₂, a₁, a₂, a₃, a₄]
    · have a₂ : ¬j - i < m := by omega
      have a₃ : ¬j < i := by omega
      have a₅ : other.getLsbD (j - i) = false := BitVec.getLsbD_of_ge _ _ (by omega)
      by_cases a₁ : j < n
      · simp [h₁, h₂, a₁, a₂, a₃, a₅]
      · simp [h₁, h₂, a₁, BitVec.getLsbD_of_ge w j (by omega)]
  · have a₃ : j < i := by omega
    have a₁ : j < n := by omega
    simp [h₁, a₁, a₃]

theorem engrave_of_inside {w : BitVec n} {index : Nat} {other : BitVec m} (h₁ : index < n)
    (h₂ : index + m ≤ n) : engrave w index other = .ok (splice w index other) := by
  have hi : ((index : Int) % (n : Int)).toNat = index := by
    rw [Int.emod_eq_of_lt (by omega) (by omega)]
    rfl
  simp [engrave, hi, h₂]

end Sys2Proof.Machine
end

