-- ==== Sys2Proof/Laws/Memory.lean ====
section
/-!
SUPPORT. The laws of the store: reading after a write (spec/20_memory.md R41, R42), and that every
operation keeps the canonical form.
-/

namespace Sys2Proof.Machine

variable {W : Nat}

/-! ### Reading after a write, on any list -/

theorem cellRead_of_absent (m : Memory W) (a : Nat) (h : ∀ c ∈ m, c.1 ≠ a) : cellRead m a = 0#W := by
  induction m with
  | nil => rfl
  | cons c rest ih =>
    have hc : c.1 ≠ a := h c (by simp)
    rw [cellRead, if_neg hc]
    exact ih fun d hd => h d (by simp [hd])

theorem cellRead_erase_same (m : Memory W) (a : Nat) : cellRead (cellErase m a) a = 0#W :=
  cellRead_of_absent _ _ (by simp [cellErase])

theorem cellRead_erase_other (m : Memory W) {a b : Nat} (h : b ≠ a) :
    cellRead (cellErase m a) b = cellRead m b := by
  induction m with
  | nil => rfl
  | cons c rest ih =>
    obtain ⟨k, v⟩ := c
    rw [cellErase] at ih ⊢
    by_cases hk : k = a
    · subst hk
      simpa [cellRead, Ne.symm h] using ih
    · by_cases hb : k = b <;> simp_all [cellRead]

theorem cellRead_insert_same (m : Memory W) (a : Nat) (v : BitVec W) (h : ∀ c ∈ m, c.1 ≠ a) :
    cellRead (cellInsert a v m) a = v := by
  induction m with
  | nil => simp [cellInsert, cellRead]
  | cons c rest ih =>
    have hc : c.1 ≠ a := h c (by simp)
    rw [cellInsert]
    split
    · simp [cellRead]
    · rw [cellRead, if_neg hc]
      exact ih fun d hd => h d (by simp [hd])

theorem cellRead_insert_other (m : Memory W) {a b : Nat} (v : BitVec W) (h : b ≠ a) :
    cellRead (cellInsert a v m) b = cellRead m b := by
  induction m with
  | nil => simp [cellInsert, cellRead, Ne.symm h]
  | cons c rest ih =>
    rw [cellInsert]
    split
    · rw [cellRead, if_neg (Ne.symm h)]
    · rw [cellRead, cellRead, ih]

@[simp] theorem cellRead_write_same (m : Memory W) (a : Nat) (v : BitVec W) :
    cellRead (cellWrite m a v) a = v := by
  rw [cellWrite]
  split
  · next h => rw [cellRead_erase_same, h]
  · exact cellRead_insert_same _ _ _ (by simp [cellErase])

theorem cellRead_write_other (m : Memory W) {a b : Nat} (v : BitVec W) (h : b ≠ a) :
    cellRead (cellWrite m a v) b = cellRead m b := by
  rw [cellWrite]
  split
  · exact cellRead_erase_other m h
  · rw [cellRead_insert_other _ _ h, cellRead_erase_other m h]

/-! ### The canonical form -/

/-- The canonical form as a proposition. -/
theorem wf_iff {N : Nat} {m : Memory W} :
    Memory.wf N m = true ↔
      m.Pairwise (fun c d => c.1 < d.1) ∧ ∀ c ∈ m, c.1 < N ∧ c.2 ≠ 0#W := by
  simp [Memory.wf, List.all_eq_true]

theorem wf_nil {N : Nat} : Memory.wf N ([] : Memory W) = true := rfl

theorem wf_erase {N : Nat} {m : Memory W} (h : Memory.wf N m = true) (a : Nat) :
    Memory.wf N (cellErase m a) = true := by
  rw [wf_iff] at h ⊢
  exact ⟨h.1.filter _, fun c hc => h.2 c (List.mem_of_mem_filter hc)⟩

theorem mem_insert {a : Nat} {v : BitVec W} {m : Memory W} {c : Nat × BitVec W} :
    c ∈ cellInsert a v m ↔ c = (a, v) ∨ c ∈ m := by
  induction m with
  | nil => simp [cellInsert]
  | cons d rest ih =>
    rw [cellInsert]
    split
    · simp
    · simp only [List.mem_cons, ih]
      tauto

theorem pairwise_insert {a : Nat} {v : BitVec W} {m : Memory W}
    (h : m.Pairwise (fun c d => c.1 < d.1)) (ha : ∀ c ∈ m, c.1 ≠ a) :
    (cellInsert a v m).Pairwise (fun c d => c.1 < d.1) := by
  induction m with
  | nil => simp [cellInsert]
  | cons d rest ih =>
    rw [List.pairwise_cons] at h
    rw [cellInsert]
    split
    · next hlt =>
      refine List.pairwise_cons.2 ⟨fun c hc => ?_, List.pairwise_cons.2 h⟩
      rcases List.mem_cons.1 hc with rfl | hc
      · exact hlt
      · exact hlt.trans (h.1 c hc)
    · next hge =>
      have hd : d.1 ≠ a := ha d (by simp)
      refine List.pairwise_cons.2 ⟨fun c hc => ?_, ih h.2 fun c hc => ha c (by simp [hc])⟩
      rcases mem_insert.1 hc with rfl | hc
      · show d.1 < a
        omega
      · exact h.1 c hc

/-- A write below `N` keeps the canonical form. -/
theorem wf_write {N : Nat} {m : Memory W} (h : Memory.wf N m = true) {a : Nat} (ha : a < N)
    (v : BitVec W) : Memory.wf N (cellWrite m a v) = true := by
  rw [cellWrite]
  split
  · exact wf_erase h a
  · next hv =>
    have he := wf_iff.1 (wf_erase h a)
    refine wf_iff.2 ⟨pairwise_insert he.1 (by simp [cellErase]), fun c hc => ?_⟩
    rcases mem_insert.1 hc with rfl | hc
    · exact ⟨ha, hv⟩
    · exact he.2 c hc

/-- Outside the store's addresses a canonical list reads zero. -/
theorem cellRead_outside {N : Nat} {m : Memory W} (h : Memory.wf N m = true) {a : Nat} (ha : N ≤ a) :
    cellRead m a = 0#W :=
  cellRead_of_absent m a fun c hc => by have := ((wf_iff.1 h).2 c hc).1; omega

/-! ### The accesses -/

/-- All that `MemRead` can do (R41). -/
theorem memRead_eq (M : MachineModel W) (s : EngineState W) (a : Nat) :
    (a < M.wordCount ∧ memRead M s a = .ok (cellRead s.store a)) ∨
    (M.wordCount ≤ a ∧ memRead M s a = .error (.boundsError a)) := by
  rcases Nat.lt_or_ge a M.wordCount with h | h
  · exact .inl ⟨h, if_pos h⟩
  · exact .inr ⟨h, if_neg (by omega)⟩

theorem memRead_of_lt {M : MachineModel W} {s : EngineState W} {a : Nat} (h : a < M.wordCount) :
    memRead M s a = .ok (cellRead s.store a) := if_pos h

theorem memRead_of_ge {M : MachineModel W} {s : EngineState W} {a : Nat} (h : M.wordCount ≤ a) :
    memRead M s a = .error (.boundsError a) := if_neg (by omega)

theorem memWrite_of_lt {M : MachineModel W} {s : EngineState W} {a : Nat} (h : a < M.wordCount)
    (v : BitVec W) : memWrite M s a v = .ok (s.setStore (cellWrite s.store a v)) := by
  simp [memWrite, h]

theorem memWrite_of_ge {M : MachineModel W} {s : EngineState W} {a : Nat} (h : M.wordCount ≤ a)
    {n : Nat} (v : BitVec n) : memWrite M s a v = .error (.boundsError a) := if_neg (by omega)

/-- All that `MemWrite` can do when it answers: one store word replaced, in range (R42). -/
theorem memWrite_ok {n : Nat} {M : MachineModel W} {s t : EngineState W} {a : Nat} {v : BitVec n}
    (h : memWrite M s a v = .ok t) :
    a < M.wordCount ∧ ∃ hn : n = W, t = s.setStore (cellWrite s.store a (v.cast hn)) := by
  unfold memWrite at h
  split at h
  · next ha =>
    split at h
    · next hn => exact ⟨ha, hn, (Except.ok.inj h).symm⟩
    · cases h
  · cases h

/-- `MemWrite` keeps the canonical form. -/
theorem memWrite_wf {n : Nat} {M : MachineModel W} {s t : EngineState W} {a : Nat} {v : BitVec n}
    (hs : Memory.wf M.wordCount s.store = true) (h : memWrite M s a v = .ok t) :
    Memory.wf M.wordCount t.store = true := by
  obtain ⟨ha, rfl, rfl⟩ := memWrite_ok h
  exact wf_write hs ha _

/-- `clear()` leaves the canonical form. -/
theorem memClear_wf (M : MachineModel W) (s : EngineState W) :
    Memory.wf M.wordCount (memClear s).store = true := rfl

end Sys2Proof.Machine
end

