-- ==== Sys2Proof/Laws/State.lean ====
section
/-!
SUPPORT. One lemma per field per update of the state, each true by rfl, so that no later proof unfolds a
record update; and the two ends of an execute step.
-/

namespace Sys2Proof.Machine

variable {W : Nat} (s : EngineState W)

/-! ### setCI -/

@[simp] theorem EngineState.setCI_ci (v : BitVec W) : (s.setCI v).ci = v := rfl
@[simp] theorem EngineState.setCI_a (v : BitVec W) : (s.setCI v).a = s.a := rfl
@[simp] theorem EngineState.setCI_store (v : BitVec W) : (s.setCI v).store = s.store := rfl
@[simp] theorem EngineState.setCI_halted (v : BitVec W) : (s.setCI v).halted = s.halted := rfl
@[simp] theorem EngineState.setCI_cycles (v : BitVec W) : (s.setCI v).cycles = s.cycles := rfl
@[simp] theorem EngineState.setCI_last (v : BitVec W) : (s.setCI v).last = s.last := rfl
@[simp] theorem EngineState.setCI_speed (v : BitVec W) : (s.setCI v).speed = s.speed := rfl
@[simp] theorem EngineState.setCI_cancel (v : BitVec W) : (s.setCI v).cancel = s.cancel := rfl
@[simp] theorem EngineState.setCI_fault (v : BitVec W) : (s.setCI v).fault = s.fault := rfl

/-! ### setA -/

@[simp] theorem EngineState.setA_ci (v : BitVec W) : (s.setA v).ci = s.ci := rfl
@[simp] theorem EngineState.setA_a (v : BitVec W) : (s.setA v).a = v := rfl
@[simp] theorem EngineState.setA_store (v : BitVec W) : (s.setA v).store = s.store := rfl
@[simp] theorem EngineState.setA_halted (v : BitVec W) : (s.setA v).halted = s.halted := rfl
@[simp] theorem EngineState.setA_cycles (v : BitVec W) : (s.setA v).cycles = s.cycles := rfl
@[simp] theorem EngineState.setA_last (v : BitVec W) : (s.setA v).last = s.last := rfl
@[simp] theorem EngineState.setA_speed (v : BitVec W) : (s.setA v).speed = s.speed := rfl
@[simp] theorem EngineState.setA_cancel (v : BitVec W) : (s.setA v).cancel = s.cancel := rfl
@[simp] theorem EngineState.setA_fault (v : BitVec W) : (s.setA v).fault = s.fault := rfl

/-! ### setStore -/

@[simp] theorem EngineState.setStore_ci (m : Memory W) : (s.setStore m).ci = s.ci := rfl
@[simp] theorem EngineState.setStore_a (m : Memory W) : (s.setStore m).a = s.a := rfl
@[simp] theorem EngineState.setStore_store (m : Memory W) : (s.setStore m).store = m := rfl
@[simp] theorem EngineState.setStore_halted (m : Memory W) : (s.setStore m).halted = s.halted := rfl
@[simp] theorem EngineState.setStore_cycles (m : Memory W) : (s.setStore m).cycles = s.cycles := rfl
@[simp] theorem EngineState.setStore_last (m : Memory W) : (s.setStore m).last = s.last := rfl
@[simp] theorem EngineState.setStore_speed (m : Memory W) : (s.setStore m).speed = s.speed := rfl
@[simp] theorem EngineState.setStore_cancel (m : Memory W) : (s.setStore m).cancel = s.cancel := rfl
@[simp] theorem EngineState.setStore_fault (m : Memory W) : (s.setStore m).fault = s.fault := rfl

/-! ### setHalted -/

@[simp] theorem EngineState.setHalted_ci (b : Bool) : (s.setHalted b).ci = s.ci := rfl
@[simp] theorem EngineState.setHalted_a (b : Bool) : (s.setHalted b).a = s.a := rfl
@[simp] theorem EngineState.setHalted_store (b : Bool) : (s.setHalted b).store = s.store := rfl
@[simp] theorem EngineState.setHalted_halted (b : Bool) : (s.setHalted b).halted = b := rfl
@[simp] theorem EngineState.setHalted_cycles (b : Bool) : (s.setHalted b).cycles = s.cycles := rfl
@[simp] theorem EngineState.setHalted_last (b : Bool) : (s.setHalted b).last = s.last := rfl
@[simp] theorem EngineState.setHalted_speed (b : Bool) : (s.setHalted b).speed = s.speed := rfl
@[simp] theorem EngineState.setHalted_cancel (b : Bool) : (s.setHalted b).cancel = s.cancel := rfl
@[simp] theorem EngineState.setHalted_fault (b : Bool) : (s.setHalted b).fault = s.fault := rfl

/-! ### record -/

@[simp] theorem EngineState.record_ci (d : Descriptor) : (s.record d).ci = s.ci := rfl
@[simp] theorem EngineState.record_a (d : Descriptor) : (s.record d).a = s.a := rfl
@[simp] theorem EngineState.record_store (d : Descriptor) : (s.record d).store = s.store := rfl
@[simp] theorem EngineState.record_halted (d : Descriptor) : (s.record d).halted = s.halted := rfl
@[simp] theorem EngineState.record_cycles (d : Descriptor) : (s.record d).cycles = s.cycles + 1 := rfl
@[simp] theorem EngineState.record_last (d : Descriptor) : (s.record d).last = some d := rfl
@[simp] theorem EngineState.record_speed (d : Descriptor) : (s.record d).speed = s.speed := rfl
@[simp] theorem EngineState.record_cancel (d : Descriptor) : (s.record d).cancel = s.cancel := rfl
@[simp] theorem EngineState.record_fault (d : Descriptor) : (s.record d).fault = s.fault := rfl

/-! ### setSpeed -/

@[simp] theorem EngineState.setSpeed_ci (q : Rat) : (s.setSpeed q).ci = s.ci := rfl
@[simp] theorem EngineState.setSpeed_a (q : Rat) : (s.setSpeed q).a = s.a := rfl
@[simp] theorem EngineState.setSpeed_store (q : Rat) : (s.setSpeed q).store = s.store := rfl
@[simp] theorem EngineState.setSpeed_halted (q : Rat) : (s.setSpeed q).halted = s.halted := rfl
@[simp] theorem EngineState.setSpeed_cycles (q : Rat) : (s.setSpeed q).cycles = s.cycles := rfl
@[simp] theorem EngineState.setSpeed_last (q : Rat) : (s.setSpeed q).last = s.last := rfl
@[simp] theorem EngineState.setSpeed_speed (q : Rat) : (s.setSpeed q).speed = q := rfl
@[simp] theorem EngineState.setSpeed_cancel (q : Rat) : (s.setSpeed q).cancel = s.cancel := rfl
@[simp] theorem EngineState.setSpeed_fault (q : Rat) : (s.setSpeed q).fault = s.fault := rfl

/-! ### setCancel -/

@[simp] theorem EngineState.setCancel_ci (b : Bool) : (s.setCancel b).ci = s.ci := rfl
@[simp] theorem EngineState.setCancel_a (b : Bool) : (s.setCancel b).a = s.a := rfl
@[simp] theorem EngineState.setCancel_store (b : Bool) : (s.setCancel b).store = s.store := rfl
@[simp] theorem EngineState.setCancel_halted (b : Bool) : (s.setCancel b).halted = s.halted := rfl
@[simp] theorem EngineState.setCancel_cycles (b : Bool) : (s.setCancel b).cycles = s.cycles := rfl
@[simp] theorem EngineState.setCancel_last (b : Bool) : (s.setCancel b).last = s.last := rfl
@[simp] theorem EngineState.setCancel_speed (b : Bool) : (s.setCancel b).speed = s.speed := rfl
@[simp] theorem EngineState.setCancel_cancel (b : Bool) : (s.setCancel b).cancel = b := rfl
@[simp] theorem EngineState.setCancel_fault (b : Bool) : (s.setCancel b).fault = s.fault := rfl

/-! ### setFault -/

@[simp] theorem EngineState.setFault_ci (f : Option EngineError) : (s.setFault f).ci = s.ci := rfl
@[simp] theorem EngineState.setFault_a (f : Option EngineError) : (s.setFault f).a = s.a := rfl
@[simp] theorem EngineState.setFault_store (f : Option EngineError) : (s.setFault f).store = s.store := rfl
@[simp] theorem EngineState.setFault_halted (f : Option EngineError) : (s.setFault f).halted = s.halted := rfl
@[simp] theorem EngineState.setFault_cycles (f : Option EngineError) : (s.setFault f).cycles = s.cycles := rfl
@[simp] theorem EngineState.setFault_last (f : Option EngineError) : (s.setFault f).last = s.last := rfl
@[simp] theorem EngineState.setFault_speed (f : Option EngineError) : (s.setFault f).speed = s.speed := rfl
@[simp] theorem EngineState.setFault_cancel (f : Option EngineError) : (s.setFault f).cancel = s.cancel := rfl
@[simp] theorem EngineState.setFault_fault (f : Option EngineError) : (s.setFault f).fault = f := rfl

/-! ### Taking an error, step 1 -/

@[simp] theorem takeError_eq_setFault (e : EngineError) : takeError e s = s.setFault (some e) := rfl

@[simp] theorem memClear_eq_setStore : memClear s = s.setStore [] := rfl

theorem advanceCI_eq_setCI (M : MachineModel W) : advanceCI M s = s.setCI (nextCI M s.ci) := rfl

theorem beginCycle_eq (t : State) : beginCycle t = ⟨advanceCI Config.baby32 t.toEngineState⟩ := rfl

/-! ### The ends of an execute step -/

@[simp] theorem settle_ok (t : State) (u : EngineState 32) : settle t (.ok u) = .next ⟨u⟩ := rfl

@[simp] theorem settle_error (t : State) (e : EngineError) :
    settle t (.error e) = .next ⟨t.setFault (some e)⟩ := rfl

/-- An execute step always answers a next state. -/
theorem settle_next (t : State) (r : Except EngineError (EngineState 32)) :
    ∃ u, settle t r = .next u ∧ (r = .ok u.toEngineState ∨ ∃ e, r = .error e ∧ u = ⟨t.setFault (some e)⟩) := by
  cases r with
  | ok u => exact ⟨⟨u⟩, rfl, .inl rfl⟩
  | error e => exact ⟨_, rfl, .inr ⟨e, rfl, rfl⟩⟩

/-- Step 5 happens exactly when the execute step raised nothing. -/
theorem finishCycle_next (d : Descriptor) (t : State) :
    finishCycle d (.next t) = if t.fault = none then .next ⟨t.record d⟩ else .next t := by
  cases h : t.fault <;> simp [finishCycle, h]

end Sys2Proof.Machine
end

