-- ==== Sys2Proof/Laws/Ops.lean ====
section
/-!
SUPPORT. What the shared operations of the cycle can do: step 1, the fetch, the operand, the checks of a
MachineModel.
-/

namespace Sys2Proof

/-- The test that runs decides the constraints of 00_scope.md R5. -/
theorem MachineModel.valid_iff {W : Nat} {M : MachineModel W} : M.valid = true ↔ M.Valid := by
  constructor
  · intro h
    simp only [MachineModel.valid, Bool.and_eq_true, decide_eq_true_eq] at h
    obtain ⟨⟨⟨⟨⟨⟨⟨⟨⟨h₁, h₂⟩, h₃⟩, h₄⟩, h₅⟩, h₆⟩, h₇⟩, h₈⟩, h₉⟩, h₁₀⟩ := h
    exact ⟨h₁, h₂, h₃, h₄, h₅, h₆, h₇, h₈, h₉, h₁₀⟩
  · rintro ⟨h₁, h₂, h₃, h₄, h₅, h₆, h₇, h₈, h₉, h₁₀⟩
    simp only [MachineModel.valid, Bool.and_eq_true, decide_eq_true_eq]
    exact ⟨⟨⟨⟨⟨⟨⟨⟨⟨h₁, h₂⟩, h₃⟩, h₄⟩, h₅⟩, h₆⟩, h₇⟩, h₈⟩, h₉⟩, h₁₀⟩

namespace Config

@[simp] theorem baby32_wordCount : baby32.wordCount = 32 := rfl
@[simp] theorem baby32_addrStart : baby32.addrStart = 0 := rfl
@[simp] theorem baby32_addrLen : baby32.addrLen = 5 := rfl
@[simp] theorem baby32_opStart : baby32.opStart = 13 := rfl
@[simp] theorem baby32_opLen : baby32.opLen = 3 := rfl
@[simp] theorem baby32_overflow : baby32.overflow = .wrap := rfl

theorem baby32_valid : baby32.Valid := MachineModel.valid_iff.1 (by decide)

end Config

namespace Machine

variable {W : Nat} {M : MachineModel W}

/-- CI one position on, as a number, in a store the words can address. -/
theorem nextCI_toNat (h : M.wordCount ≤ 2 ^ W) (hN : 1 ≤ M.wordCount) (ci : BitVec W) :
    (nextCI M ci).toNat = (ci.toNat + 1) % M.wordCount := by
  have := Nat.mod_lt (ci.toNat + 1) hN
  exact fromUnsigned_toNat (by omega)

theorem nextCI_toNat_baby32 (ci : Word) : (nextCI Config.baby32 ci).toNat = (ci.toNat + 1) % 32 :=
  nextCI_toNat (by decide) (by decide) ci

theorem nextCI_baby32 (ci : Word) :
    nextCI Config.baby32 ci = BitVec.ofNat 32 ((ci.toNat + 1) % 32) := by
  have := Nat.mod_lt (ci.toNat + 1) (show 32 > 0 by decide)
  exact fromUnsigned_of_lt (Nat.lt_trans this (by decide))

/-- The fetch of step 2 reads a word and raises nothing, after step 1 in a valid model
(40_instruction_cycle.md R92). -/
theorem fetchWord_advanceCI (hM : M.Valid) (s : EngineState W) :
    fetchWord M (advanceCI M s) = .ok (cellRead s.store ((s.ci.toNat + 1) % M.wordCount)) := by
  have h := nextCI_toNat hM.store_addressable hM.word_count s.ci
  have hlt := Nat.mod_lt (s.ci.toNat + 1) hM.word_count
  unfold fetchWord
  rw [advanceCI_eq_setCI, EngineState.setCI_ci, h, memRead_of_lt hlt, EngineState.setCI_store]

/-- All that reading an operand can do (20_memory.md R41). -/
theorem readOperand_eq (S : Nat) (s : EngineState W) :
    readOperand M S s =
      if S < M.wordCount then .ok (cellRead s.store S) else .error (.boundsError S) := rfl

/-- All that writing an operand can do (20_memory.md R42). -/
theorem writeOperand_eq (S : Nat) (v : BitVec W) (s : EngineState W) :
    writeOperand M S v s =
      if S < M.wordCount then .ok (s.setStore (cellWrite s.store S v))
      else .error (.boundsError S) := by
  rcases Nat.lt_or_ge S M.wordCount with h | h
  · rw [if_pos h]
    exact memWrite_of_lt h v
  · rw [if_neg (by omega)]
    exact memWrite_of_ge h v

end Machine
end Sys2Proof
end

