-- ==== Sys2Proof/Laws/Decode.lean ====
section
/-!
SUPPORT. What the decoder can do with a store word of a valid MachineModel, and the opcode table of `Baby32`.
-/

namespace Sys2Proof

open Machine

variable {W : Nat} {M : MachineModel W}

/-- A store word of a valid model decodes by a table lookup and a field; no `RangeError` arises
(spec/30_encoding.md R65). -/
theorem decodePair_storeWord (hM : M.Valid) (w : BitVec W) :
    decodePair M w =
      match M.optable.lookup (w.extractLsb' M.opStart M.opLen) with
      | none => .error (.decodeError (bitList (w.extractLsb' M.opStart M.opLen)))
      | some m => .ok (m, (w.extractLsb' M.addrStart M.addrLen).toNat) := by
  have h₁ := slice_of_inside (w := w) hM.op_len hM.op_inside
  have h₂ := slice_of_inside (w := w) hM.addr_len hM.addr_inside
  unfold decodePair
  cases h : M.optable.lookup (w.extractLsb' M.opStart M.opLen) with
  | none => simp only [h₁, h]
  | some m => simp only [h₁, h, h₂]

/-- The fetch and decode of a cycle, after step 1. -/
theorem fetchPair_advanceCI (hM : M.Valid) (s : EngineState W) :
    fetchPair M (advanceCI M s) =
      decodePair M (cellRead s.store ((s.ci.toNat + 1) % M.wordCount)) := by
  rw [fetchPair, fetchWord_advanceCI hM]

/-- The opcode table of `Baby32` by the number of the pattern (R63). -/
theorem baby32_lookup (p : BitVec 3) :
    Config.baby32.optable.lookup p =
      [Mnemonic.jmp, .jrp, .ldn, .sto, .sub, .sub, .cmp, .stp][p.toNat]? := by
  revert p
  decide

/-- The instruction and the pair it stands for say the same. -/
theorem ofPair?_eq_some {m : Mnemonic} {S : Nat} {i : Instr} :
    Instr.ofPair? m S = some i ↔ i.mnemonic = m ∧ i.operand = S := by
  cases m <;> cases i <;> simp [Instr.ofPair?, Instr.mnemonic, Instr.operand, eq_comm]

end Sys2Proof
end

