-- ==== Sys2Proof/Laws/HostOps.lean ====
section
/-!
SUPPORT. What each operation of the host can do when it answers a next state
(spec/70_reset_and_hazards.md R184 to R186, 40_instruction_cycle.md R98).
-/

namespace Sys2Proof.Machine

variable {W : Nat} {M : MachineModel W} {s t u : EngineState W}

/-- A request admitted only while halted answers exactly on a halted machine with no fault mark. -/
theorem whileHalted_next : whileHalted s t = .next u ↔ s.fault = none ∧ s.halted = true ∧ u = t := by
  cases hf : s.fault <;> cases hh : s.halted <;> simp [whileHalted, hf, hh, eq_comm]

theorem setSpeedOf_next {q : Rat} : setSpeedOf q s = .next t ↔ 0 < q ∧ t = s.setSpeed q := by
  unfold setSpeedOf
  split <;> simp_all [eq_comm]

theorem manualStepOf_next :
    manualStepOf M s = .next t ↔ s.fault = none ∧ s.halted = true ∧ t = cycleOf M s := by
  cases hf : s.fault <;> cases hh : s.halted <;> simp [manualStepOf, hf, hh, eq_comm]

/-- An admitted load commits the whole image, or leaves the machine as it is. -/
theorem loadOf_next {source : List Char} :
    loadOf M source s = .next t ↔ s.fault = none ∧ s.halted = true ∧
      ((∃ image, loadImage M source = .ok image ∧ t = s.setStore image) ∨
        (∃ errors, loadImage M source = .error errors) ∧ t = s) := by
  unfold loadOf
  cases loadImage M source <;> simp [whileHalted_next]

theorem clearMemoryOf_next :
    clearMemoryOf s = .next t ↔ s.fault = none ∧ s.halted = true ∧ t = s.setStore [] :=
  whileHalted_next

theorem clearStateOf_next :
    clearStateOf s = .next t ↔
      s.fault = none ∧ s.halted = true ∧ t = (s.setCI (zeroWord W)).setA (zeroWord W) :=
  whileHalted_next

@[simp] theorem ofEngine_next (t : EngineState 32) : ofEngine (.next t) = .next ⟨t⟩ := rfl
@[simp] theorem ofEngine_fault (r : Fault) : ofEngine (.fault r) = .fault r := rfl
@[simp] theorem ofEngine_refused (r : Refusal) : ofEngine (.refused r) = .refused r := rfl

/-- A `Baby32` answer is the answer of the engine, wrapped. -/
theorem ofEngine_eq_next {o : Host.Outcome (EngineState 32) Fault Refusal} {t : State} :
    ofEngine o = .next t ↔ o = .next t.toEngineState := by
  cases o with
  | next u => exact ⟨fun h => by cases h; rfl, fun h => by cases h; rfl⟩
  | fault _ => exact ⟨fun h => (by cases h), fun h => (by cases h)⟩
  | refused _ => exact ⟨fun h => (by cases h), fun h => (by cases h)⟩

end Sys2Proof.Machine
end

