-- ==== Sys2Proof/Laws/Loader.lean ====
section
/-!
SUPPORT. The loader keeps the canonical form of the store image it builds (spec/30_encoding.md R76, R79).
-/

namespace Sys2Proof.Machine

variable {W : Nat}

theorem loadPass_wf {N : Nat} {wordOf : Nat → List Char → Except LoadError (BitVec W)}
    (lines : List (List Char)) (k : Nat) {image : Memory W} (h : Memory.wf N image = true) :
    Memory.wf N (loadPass N wordOf lines k image).1 = true := by
  induction lines generalizing k image with
  | nil => exact h
  | cons line rest ih =>
    rw [loadPass]
    split
    · exact ih (k + 1) h
    · split
      · next hk => exact ih (k + 1) (wf_write h hk _)
      · exact ih (k + 1) h

/-- An image a load commits has the canonical form. -/
theorem loadImage_wf {M : MachineModel W} {source : List Char} {image : Memory W}
    (h : loadImage M source = .ok image) : Memory.wf M.wordCount image = true := by
  simp only [loadImage] at h
  split at h
  · cases h
  · split at h
    · next hp =>
      cases h
      have := loadPass_wf (wordOf := assembleLine M) (meaningfulLines source) 0 (wf_nil (N := M.wordCount))
      rwa [hp] at this
    · cases h
  · split at h
    · next hp =>
      cases h
      have := loadPass_wf (wordOf := dumpLine) (meaningfulLines source) 0 (wf_nil (W := W) (N := M.wordCount))
      rwa [hp] at this
    · cases h

end Sys2Proof.Machine
end

