-- ==== Sys2Proof/Laws/PerInstr.lean ====
section
/-!
SUPPORT. Statements made per instruction.
-/

namespace Sys2Proof.Laws.PairRebuild

/-- An instruction is rebuilt from its mnemonic and its address field: the decoded pair of
spec/30_encoding.md R65 and the instruction say the same. -/
def Statement (i : Instr) : Prop := Instr.ofPair? i.mnemonic i.operand = some i

theorem jmp (S : Nat) : Statement (.jmp S) := rfl
theorem jrp (S : Nat) : Statement (.jrp S) := rfl
theorem ldn (S : Nat) : Statement (.ldn S) := rfl
theorem sto (S : Nat) : Statement (.sto S) := rfl
theorem sub (S : Nat) : Statement (.sub S) := rfl
theorem cmp (S : Nat) : Statement (.cmp S) := rfl
theorem stp (S : Nat) : Statement (.stp S) := rfl

end Sys2Proof.Laws.PairRebuild
end

