-- ==== Sys2Proof/Tests/Slice0.lean ====
section
/-!
SUPPORT. Tests. `test_` checks a value the spec gives (spec/95_test_vectors.md unless another file is named);
`witness_<Statement>` shows concrete values that meet the hypotheses of a statement of
Certificates/Slice0/Obligations.lean, clause by clause, at the ends of the ranges.
-/

namespace Sys2Proof.Tests

open Sys2Proof.Machine

/-! ### Helpers -/

/-- A running machine in the middle of a run. -/
def running (ci a : Word) (store : Memory 32) : State :=
  ⟨{ ci := ci, a := a, store := store, halted := false, cycles := 5, last := some ⟨5, .ldn, 10⟩,
     speed := 1, cancel := false, fault := none }⟩

/-- The same machine paused. -/
def paused (ci a : Word) (store : Memory 32) : State := ⟨(running ci a store).setHalted true⟩

/-- `Tiny8` (V9): words of 8 bits, a partial opcode table, operands that can lie beyond the store. -/
def tiny8 : MachineModel 8 where
  wordCount := 4
  addrStart := 0
  addrLen := 3
  opStart := 5
  opLen := 3
  optable := [(0#3, .jmp), (2#3, .ldn), (3#3, .sto), (4#3, .sub), (7#3, .stp)]
  needsOperand := [.jmp, .ldn, .sto, .sub, .num]
  addrTyped := [.jmp, .ldn, .sto, .sub]

/-- `Tiny8` with the reject policy and JRP in its table. -/
def tinyReject : MachineModel 8 :=
  { tiny8 with optable := (1#3, .jrp) :: tiny8.optable, overflow := .reject }

/-- A running engine of `Tiny8`. -/
def tiny (ci a : BitVec 8) (store : Memory 8) : EngineState 8 :=
  { EngineState.initial 8 with ci := ci, a := a, store := store, halted := false }

theorem tiny8_valid : tiny8.Valid := MachineModel.valid_iff.1 (by decide)

theorem running_running (ci a : Word) (store : Memory 32) : (running ci a store).Running :=
  ⟨rfl, rfl, rfl⟩

theorem tiny_running (ci a : BitVec 8) (store : Memory 8) : (tiny ci a store).Running :=
  ⟨rfl, rfl, rfl⟩

/-- The program text of `n` lines STP. -/
def stpLines (n : Nat) : List Char :=
  (List.range n).flatMap (fun k => (toString k).toList ++ " STP\n".toList)

/-- An outcome is the given next state, as a test that runs. -/
def answers (o : Host.Outcome State Fault Refusal) (t : State) : Bool :=
  match o with
  | .next u => decide (u = t)
  | .fault _ => false
  | .refused _ => false

theorem of_answers {o : Host.Outcome State Fault Refusal} {t : State} (h : answers o t = true) :
    o = .next t := by
  cases o with
  | next u => exact congrArg _ (of_decide_eq_true h)
  | fault _ => cases h
  | refused _ => cases h

/-! ### WellFormed: every check refuses an ill-formed term -/

theorem test_operand_32_is_ill_formed :
    ¬(Instr.jmp 32).WellFormed ∧ ¬(Instr.jrp 32).WellFormed ∧ ¬(Instr.ldn 32).WellFormed ∧
    ¬(Instr.sto 32).WellFormed ∧ ¬(Instr.sub 32).WellFormed ∧ ¬(Instr.cmp 32).WellFormed ∧
    ¬(Instr.stp 32).WellFormed := by decide

theorem test_operand_31_is_well_formed :
    (Instr.jmp 31).WellFormed ∧ (Instr.cmp 31).WellFormed ∧ ¬(Instr.ldn 8).WellFormedIn tiny8 := by decide

theorem test_models_valid : Config.baby32.valid = true ∧ tiny8.valid = true := by decide

/-- One model per constraint of 00_scope.md R5 that breaks it. -/
theorem test_bad_models_refused :
    ({ tiny8 with wordCount := 0 } : MachineModel 8).valid = false ∧
    ({ tiny8 with wordCount := 257 } : MachineModel 8).valid = false ∧
    ({ tiny8 with addrLen := 0 } : MachineModel 8).valid = false ∧
    ({ tiny8 with opLen := 0, optable := [] } : MachineModel 8).valid = false ∧
    ({ tiny8 with opStart := 6 } : MachineModel 8).valid = false ∧
    ({ tiny8 with addrStart := 6, opStart := 0 } : MachineModel 8).valid = false ∧
    ({ tiny8 with addrStart := 3 } : MachineModel 8).valid = false ∧
    ({ tiny8 with optable := [(0#3, .jmp), (0#3, .stp)] } : MachineModel 8).valid = false ∧
    ({ tiny8 with optable := [(0#3, .num)] } : MachineModel 8).valid = false ∧
    ({ wordCount := 1, addrStart := 0, addrLen := 1, opStart := 1, opLen := 1, optable := [],
       needsOperand := [], addrTyped := [] } : MachineModel 0).valid = false := by decide

/-! ### Word primitives (V1) -/

theorem test_from_int :
    fromInt .wrap 5 4 = .ok 0b0101#4 ∧ fromInt .wrap (-8) 4 = .ok 0b1000#4 ∧
    fromInt .wrap 8 4 = .ok 0b1000#4 ∧ fromInt .wrap (-9) 4 = .ok 0b0111#4 ∧
    fromInt .wrap (-1) 1 = .ok 1#1 ∧ fromInt .wrap 1 1 = .ok 1#1 ∧
    fromInt .wrap (-57344) 32 = .ok 0xFFFF2000#32 ∧ fromInt .wrap 4294967295 32 = .ok 0xFFFFFFFF#32 :=
  by decide

theorem test_from_int_other_policies :
    fromInt .saturate 8 4 = .ok 0b0111#4 ∧ fromInt .saturate (-9) 4 = .ok 0b1000#4 ∧
    fromInt .reject 8 4 = .error (.overflowError 8) ∧ fromInt .reject 7 4 = .ok 0b0111#4 := by decide

theorem test_slice :
    slice (fromBits [true, false, true, true, false]) 1 3 = .ok (fromBits [false, true, true]) ∧
    slice (fromBits [true, false, true, true, false]) 3 3 = .error (.rangeError 3 3) ∧
    slice (fromBits [true, false, true, true, false]) (-1) 1 = .error (.rangeError (-1) 1) ∧
    slice 0x0000A005#32 13 3 = .ok 5#3 ∧ slice 0x0000A005#32 0 5 = .ok 5#5 := by decide

theorem test_engrave :
    engrave 0#8 2 5#3 = .ok (fromBits [false, false, true, false, true, false, false, false]) ∧
    engrave 0#8 (-3) 5#3 = .ok (fromBits [false, false, false, false, false, true, false, true]) ∧
    engrave 0#8 6 5#3 = .error (.rangeError 6 3) ∧ engrave 0#8 (-1) 5#3 = .error (.rangeError (-1) 3) ∧
    engrave 255#8 0 0#3 = .ok (fromBits [false, false, false, true, true, true, true, true]) := by decide

theorem test_same_word :
    sameWord (wrapInt 1 4) (wrapInt 1 5) = false ∧ sameWord (wrapInt 1 4) (wrapInt 17 4) = true := by decide

theorem test_from_string :
    fromString "001".toList 3 = some 4#3 ∧ fromString "101".toList 3 = some 5#3 ∧
    fromString "001".toList 4 = none ∧ fromString "0a1".toList 3 = none := by decide

/-! ### Decoding, each word written out bit by bit from 30_encoding.md R61, R63 (V2, V3) -/

theorem test_decode_jmp : decode 0b00000000000000000000000000010111#32 = .ok (.jmp 23) := by decide
theorem test_decode_jrp : decode 0b00000000000000000010000000001101#32 = .ok (.jrp 13) := by decide
theorem test_decode_ldn : decode 0b00000000000000000100000000001010#32 = .ok (.ldn 10) := by decide
theorem test_decode_sto : decode 0b00000000000000000110000000000101#32 = .ok (.sto 5) := by decide
theorem test_decode_sub : decode 0b00000000000000001000000000001011#32 = .ok (.sub 11) := by decide
theorem test_decode_sub_alias : decode 0b00000000000000001010000000000101#32 = .ok (.sub 5) := by decide
theorem test_decode_cmp : decode 0b00000000000000001100000000010101#32 = .ok (.cmp 21) := by decide
theorem test_decode_stp : decode 0b00000000000000001110000000011111#32 = .ok (.stp 31) := by decide

/-- Unused bits are ignored, and data words are instructions (R62, R71). -/
theorem test_decode_unused_bits :
    decode 0x0001C000#32 = .ok (.cmp 0) ∧ decode 0x00001FE0#32 = .ok (.jmp 0) ∧
    decode 0xFFFF2000#32 = .ok (.jrp 0) ∧ decode 0x80000000#32 = .ok (.jmp 0) ∧
    decode 0xFFFFFFFF#32 = .ok (.stp 31) := by decide

theorem test_decode_short_word :
    decodePair Config.baby32 (0#15) = .error (.rangeError 13 3) ∧
    decodePair tiny8 0x20#8 = .error (.decodeError [true, false, false]) := by decide

theorem test_encode :
    encode (.jmp 23) = .ok 0x00000017#32 ∧ encode (.jrp 13) = .ok 0x0000200D#32 ∧
    encode (.ldn 10) = .ok 0x0000400A#32 ∧ encode (.sto 12) = .ok 0x0000600C#32 ∧
    encode (.sub 11) = .ok 0x0000800B#32 ∧ encode (.cmp 21) = .ok 0x0000C000#32 ∧
    encode (.stp 31) = .ok 0x0000E000#32 ∧ encode (.ldn 32) = .error .wordTooLarge := by decide

theorem test_table_words :
    decodeTableWord 32 0x0000A00B = some (.sub 11) ∧ decodeTableWord 16 0xE000 = some (.stp 0) := by decide

/-! ### One step of each instruction (V4 to V8) -/

/-- CI 0x6005 fetches from 6; the whole word `Store[12]` goes to CI (V4, V5). -/
theorem test_step_jmp :
    step (running 0x00006005#32 9#32 [(6, 0x0000000C#32), (12, 0xFFFFFFFF#32)]) =
      .next ⟨((running 0x00006005#32 9#32 [(6, 0x0000000C#32), (12, 0xFFFFFFFF#32)]).setCI
        0xFFFFFFFF#32).record ⟨6, .jmp, 12⟩⟩ :=
  of_answers (by decide)

/-- The sum wraps: CI 3 plus `MAX_W` (V5). -/
theorem test_exec_jrp_wraps :
    exec (.jrp 9) (running 3#32 0#32 [(9, 0x7FFFFFFF#32)]) =
      .next (running 0x80000002#32 0#32 [(9, 0x7FFFFFFF#32)]) :=
  of_answers (by decide)

/-- Cycle vector of S5: the JRP at 10 with offset -1 loops on itself. -/
theorem test_step_jrp :
    step (running 9#32 0#32 [(10, 0x0000200B#32), (11, 0xFFFFFFFF#32)]) =
      .next ⟨((running 9#32 0#32 [(10, 0x0000200B#32), (11, 0xFFFFFFFF#32)]).setCI
        9#32).record ⟨10, .jrp, 11⟩⟩ :=
  of_answers (by decide)

theorem test_exec_ldn_min :
    exec (.ldn 10) (running 4#32 5#32 [(10, 0x80000000#32)]) =
      .next (running 4#32 0x80000000#32 [(10, 0x80000000#32)]) :=
  of_answers (by decide)

/-- Cycle vector of S2. -/
theorem test_step_ldn :
    step (running 3#32 0#32 [(4, 0x00004005#32), (5, 7#32)]) =
      .next ⟨((running 4#32 0xFFFFFFF9#32 [(4, 0x00004005#32), (5, 7#32)])).record ⟨4, .ldn, 5⟩⟩ :=
  of_answers (by decide)

/-- An STO over its own address completes normally (V6). -/
theorem test_step_sto_self :
    step (running 4#32 0x12345678#32 [(5, 0x00006005#32)]) =
      .next ⟨((running 5#32 0x12345678#32 [(5, 0x12345678#32)])).record ⟨5, .sto, 5⟩⟩ :=
  of_answers (by decide)

/-- Storing zero keeps the store's canonical form. -/
theorem test_exec_sto_zero :
    exec (.sto 6) (running 4#32 0#32 [(5, 1#32), (6, 2#32), (7, 3#32)]) =
      .next (running 4#32 0#32 [(5, 1#32), (7, 3#32)]) :=
  of_answers (by decide)

/-- S3: the alias subtracts the same. -/
theorem test_step_sub_alias :
    step (running 1#32 0xFFFFFFFB#32 [(2, 0x0000A00B#32), (11, 7#32)]) =
      .next ⟨((running 2#32 0xFFFFFFF4#32 [(2, 0x0000A00B#32), (11, 7#32)])).record ⟨2, .sub, 11⟩⟩ :=
  of_answers (by decide)

theorem test_exec_sub_wraps :
    exec (.sub 1) (running 0#32 0x80000000#32 [(1, 1#32)]) =
      .next (running 0#32 0x7FFFFFFF#32 [(1, 1#32)]) :=
  of_answers (by decide)

/-- S4: the CMP at 3 with a negative A leaves CI = 4. -/
theorem test_step_cmp :
    step (running 2#32 0xFFFFFFFF#32 [(3, 0x0000C000#32)]) =
      .next ⟨((running 4#32 0xFFFFFFFF#32 [(3, 0x0000C000#32)])).record ⟨3, .cmp, 0⟩⟩ :=
  of_answers (by decide)

/-- A CMP at 31 wraps to 0; `MAX_W` is not negative (V5). -/
theorem test_exec_cmp_edges :
    exec (.cmp 0) (running 31#32 0x80000000#32 []) = .next (running 0#32 0x80000000#32 []) ∧
    exec (.cmp 0) (running 3#32 0x7FFFFFFF#32 []) = .next (running 3#32 0x7FFFFFFF#32 []) :=
  ⟨of_answers (by decide), of_answers (by decide)⟩

/-- V8: STP with a full address field. -/
theorem test_step_stp :
    step (running 5#32 12#32 [(6, 0xFFFFFFFF#32)]) =
      .next ⟨((paused 6#32 12#32 [(6, 0xFFFFFFFF#32)])).record ⟨6, .stp, 31⟩⟩ :=
  of_answers (by decide)

/-! ### Faults (V9), the run loop and the host (V10) -/

theorem test_tiny_decode_error :
    cycleOf tiny8 (tiny 0#8 0x11#8 [(1, 0x20#8)]) =
      (tiny 1#8 0x11#8 [(1, 0x20#8)]).setFault (some (.decodeError [true, false, false])) := by decide

theorem test_tiny_bounds_error :
    cycleOf tiny8 (tiny 0#8 0x11#8 [(1, 0x45#8)]) =
      (tiny 1#8 0x11#8 [(1, 0x45#8)]).setFault (some (.boundsError 5)) ∧
    cycleOf tiny8 (tiny 0#8 0x11#8 [(1, 0x66#8)]) =
      (tiny 1#8 0x11#8 [(1, 0x66#8)]).setFault (some (.boundsError 6)) := by decide

theorem test_tiny_stp_wraps :
    cycleOf tiny8 (tiny 0xFF#8 0#8 [(0, 0xE0#8)]) =
      ((tiny 0#8 0#8 [(0, 0xE0#8)]).setHalted true).record ⟨0, .stp, 0⟩ := by decide

theorem test_tiny_overflow :
    (cycleOf tiny8 (tiny 0#8 0x80#8 [(1, 0x82#8), (2, 1#8)])).a = 0x7F#8 ∧
    cycleOf tinyReject (tiny 0#8 0x80#8 [(1, 0x82#8), (2, 1#8)]) =
      (tiny 1#8 0x80#8 [(1, 0x82#8), (2, 1#8)]).setFault (some (.overflowError (-129))) := by decide

theorem test_num_in_the_table :
    (cycleOf { tiny8 with optable := [(0#3, .num)] } (tiny 0#8 0#8 [])).fault = some .undefinedNum := by
  decide

theorem test_reset_idles : step State.reset = .next State.reset :=
  of_answers (by decide)

theorem test_fetch_word_runs_first :
    step (State.reset.withFetchWord 32 0x0000E000) =
      .next ⟨((State.reset.setCI 1#32).setStore [(1, 0x0000E000#32)]).record ⟨1, .stp, 0⟩⟩ :=
  of_answers (by decide)

theorem test_manual_step :
    hostEvent .manualStep (paused 5#32 12#32 [(6, 0x0000E000#32)]) =
      .next ⟨((paused 6#32 12#32 [(6, 0x0000E000#32)])).record ⟨6, .stp, 0⟩⟩ :=
  of_answers (by decide)

/-- The text of a load in V10: lines 3 and 5 are named. -/
theorem test_load_names_every_bad_line :
    loadImage Config.baby32 "0 NUM 0\n1 STP\n2 STP\n3 XYZ 1\n4 STP ; end\n\n7 STP".toList =
      .error [(3, .unknownMnemonic), (5, .malformedAddress)] := by decide

/-- Program P3's words (its NUM line is not what decides the format, R77). -/
theorem test_load_assembly :
    loadImage Config.baby32
      "0 NUM 0\n1 LDN 6\n2 STO 3\n3 JMP 7\n4 NUM 0\n5 NUM 0\n6 NUM -57344\n7 NUM 0".toList =
      .ok [(1, 0x00004006#32), (2, 0x00006003#32), (3, 7#32), (6, 0xFFFF2000#32)] := by decide

theorem test_load_dump :
    loadImage Config.baby32 "0: 10100000000001010000000000000000".toList = .ok [(0, 0x0000A005#32)] := by
  decide

/-- What follows the first `": "` of a dump line is its bit string (log entry 13). -/
theorem test_dump_errors :
    (dumpLine 0 "0: 10 1".toList : Except LoadError (BitVec 3)) = .error .malformedBitString ∧
    (dumpLine 0 "1: 101".toList : Except LoadError (BitVec 3)) = .error .malformedAddress ∧
    (dumpLine 0 "0 101".toList : Except LoadError (BitVec 3)) = .error .malformedAddress ∧
    (dumpLine 0 "0: 101".toList : Except LoadError (BitVec 3)) = .ok 5#3 := by decide

theorem test_load_errors :
    assembleLine Config.baby32 0 "0 LDN 32".toList = .error .operandNotStoreAddress ∧
    assembleLine Config.baby32 0 "0 LDN".toList = .error .missingOperand ∧
    assembleLine Config.baby32 0 "0 JMP -1".toList = .error .invalidOperand ∧
    assembleLine Config.baby32 0 "0 STP 3".toList = .ok 0x0000E000#32 ∧
    assembleLine Config.baby32 0 "0 NUM 4294967295".toList = .ok 0xFFFFFFFF#32 ∧
    loadImage Config.baby32 "0 NUM -5".toList = .error [(0, .unrecognizedFormat)] := by decide

/-! ### Witnesses -/

theorem witness_FromIntRoundTripsInRange :
    (1 ≤ 4 ∧ -2 ^ (4 - 1) ≤ (-8 : Int) ∧ (-8 : Int) ≤ 2 ^ (4 - 1) - 1) ∧
    (1 ≤ 4 ∧ -2 ^ (4 - 1) ≤ (7 : Int) ∧ (7 : Int) ≤ 2 ^ (4 - 1) - 1) ∧ 3 < 4 := by decide

theorem witness_WrapGivesTheResidue : 1 ≤ 1 ∧ fromInt .wrap 1 1 = .ok 1#1 := by decide

/-- In range and out of range for LDN, SUB, JRP, with the last operand of the store. -/
theorem witness_OverflowPoliciesAgreeInRange :
    3 < tinyReject.wordCount ∧ tinyReject.overflow = .reject ∧
    fromInt tinyReject.overflow (-(cellRead [(3, 0x81#8)] 3).toInt) 8 = .ok 0x7F#8 ∧
    fromInt tinyReject.overflow ((0xFF#8).toInt - (cellRead [(3, 0x7F#8)] 3).toInt) 8 = .ok 0x80#8 ∧
    fromInt tinyReject.overflow ((cellRead [(3, 0x7E#8)] 3).toInt + (1#8).toInt) 8 = .ok 0x7F#8 ∧
    ¬FitsSigned (-(cellRead [(3, 0x80#8)] 3).toInt) 8 ∧
    ¬FitsSigned ((0x80#8).toInt - (cellRead [(3, 1#8)] 3).toInt) 8 ∧
    ¬FitsSigned ((cellRead [(3, 0x7F#8)] 3).toInt + (1#8).toInt) 8 ∧
    FitsSigned 127 8 ∧ FitsSigned (-128) 8 ∧
    (2 : Int) ^ (8 - 1) - 1 < 128 ∧ (-129 : Int) < -2 ^ (8 - 1) ∧
    fetchPair tinyReject (advanceCI tinyReject (tiny 0#8 0x80#8 [(1, 0x82#8), (2, 1#8)])) =
      .ok (.sub, 2) ∧
    executeOf tinyReject .sub 2 (advanceCI tinyReject (tiny 0#8 0x80#8 [(1, 0x82#8), (2, 1#8)])) =
      .error (.overflowError (-129)) := by decide

/-- The range ends one bit past the word, and exactly at its end. -/
theorem witness_EngraveThenSliceGivesTheWordBack :
    1 ≤ 8 ∧ 1 ≤ 3 ∧ 8 < ((6 : Int) % (8 : Nat)).toNat + 3 ∧ ((-3 : Int) % (8 : Nat)).toNat + 3 ≤ 8 := by
  decide

theorem witness_BitStringsReadBackIndexZeroFirst :
    2 ≠ 3 ∧ 0 < 3 ∧ 2 < 3 ∧ renderWith '0' '1' 4#3 = "001".toList := by decide

theorem witness_StoreWriteThenReadGivesTheWord :
    3 < tiny8.wordCount ∧ 0 ≠ 3 ∧ 7 ≠ 8 ∧ tiny8.wordCount ≤ 4 := by decide

theorem witness_DecodeEncodeRoundTrip :
    (Instr.jmp 0).WellFormed ∧ (Instr.sub 31).WellFormed ∧ (Instr.stp 31).WellFormed := by decide

theorem witness_EveryModelDecodesWhatItEncodes :
    tiny8.Valid ∧ Mnemonic.sub ∈ tiny8.optable.map Prod.snd ∧ 7 < 2 ^ tiny8.addrLen :=
  ⟨tiny8_valid, by decide, by decide⟩

/-- The alias, a CMP with a field, and a word with unused bits. -/
theorem witness_ReencodingNormalisesTheWord :
    decode 0x0000A00B#32 = .ok (.sub 11) ∧ decode 0x0001C015#32 = .ok (.cmp 21) ∧
    decode 0x00001FE0#32 = .ok (.jmp 0) := by decide

/-- Too short for the opcode field, an unknown pattern, and words just long enough for one field or both. -/
theorem witness_DecodingFollowsTheFieldOrder :
    tiny8.Valid ∧ 7 < tiny8.opStart + tiny8.opLen ∧ tiny8.opStart + tiny8.opLen ≤ 8 ∧
    tiny8.optable.lookup ((0x20#8).extractLsb' 5 3) = none ∧
    tiny8.optable.lookup ((0x45#8).extractLsb' 5 3) = some .ldn ∧
    tiny8.addrStart + tiny8.addrLen ≤ 8 :=
  ⟨tiny8_valid, by decide, by decide, by decide, by decide, by decide⟩

/-- A model whose address field ends above its opcode field, and a word that holds only the latter. -/
theorem witness_DecodingFollowsTheFieldOrder_short_address :
    ({ tiny8 with opStart := 0, addrStart := 3 } : MachineModel 8).Valid ∧ 0 + 3 ≤ 5 ∧ 5 < 3 + 3 ∧
    tiny8.optable.lookup ((0#5).extractLsb' 0 3) = some .jmp :=
  ⟨MachineModel.valid_iff.1 (by decide), by decide, by decide, by decide⟩

theorem witness_AliasedPatternsDecodeAlike :
    Config.baby32.Valid ∧
    Config.baby32.optable.lookup ((0x0000800B#32).extractLsb' 13 3) = some .sub ∧
    Config.baby32.optable.lookup ((0x0000A00B#32).extractLsb' 13 3) = some .sub ∧
    (0x0000800B#32).extractLsb' 0 5 = (0x0000A00B#32).extractLsb' 0 5 :=
  ⟨Config.baby32_valid, by decide, by decide, by decide⟩

theorem witness_StepOneIncrementsModuloTheStore :
    tiny8.Valid ∧ (advanceCI tiny8 (tiny 3#8 0#8 [])).ci = 0#8 ∧ tiny8.wordCount ≤ 2 ^ 2 :=
  ⟨tiny8_valid, by decide, by decide⟩

/-- A step that completes. -/
theorem witness_StepRunsTheDecodedInstruction :
    (running 31#32 12#32 [(0, 0x0000601F#32)]).Running ∧
    nextInstr (running 31#32 12#32 [(0, 0x0000601F#32)]) = .ok (.sto 31) ∧
    (Instr.sto 31).WellFormed ∧
    exec (.sto 31) (beginCycle (running 31#32 12#32 [(0, 0x0000601F#32)])) =
      .next (running 0#32 12#32 [(0, 0x0000601F#32), (31, 12#32)]) :=
  ⟨running_running _ _ _, by decide, by decide, of_answers (by decide)⟩

theorem witness_CancelAndHaltKeepTheState :
    (⟨(running 0#32 0#32 []).setCancel true⟩ : State).cancel = true ∧
    (paused 0#32 0#32 []).halted = true ∧ (paused 0#32 0#32 []).fault = none := by decide

theorem witness_StepIsTheGenericLoopAtBaby32 :
    loopOf Config.baby32 State.reset.toEngineState = .next State.reset.toEngineState ∧
    loopOf Config.baby32 ((running 0#32 0#32 []).setFault (some .lengthError)) =
      .fault (.engineFaulted .lengthError) := ⟨rfl, rfl⟩

/-- A completed and a faulted cycle. -/
theorem witness_CompletedCyclesAreRecorded :
    tiny8.Valid ∧ (tiny 0xFF#8 0#8 [(0, 0xE0#8)]).fault = none ∧
    (cycleOf tiny8 (tiny 0xFF#8 0#8 [(0, 0xE0#8)])).fault = none ∧
    (cycleOf tiny8 (tiny 0#8 0#8 [(1, 0x20#8)])).fault ≠ none :=
  ⟨tiny8_valid, by decide, by decide, by decide⟩

theorem witness_UnknownPatternAbortsTheCycle :
    tiny8.Valid ∧ (tiny 0#8 0#8 [(1, 0x20#8)]).Running ∧
    tiny8.optable.lookup ((cellRead [(1, 0x20#8)]
      (nextFetch tiny8 (tiny 0#8 0#8 [(1, 0x20#8)]))).extractLsb' tiny8.opStart tiny8.opLen) = none :=
  ⟨tiny8_valid, tiny_running _ _ _, by decide⟩

/-- The first operand beyond the store. -/
theorem witness_OperandsBeyondTheStoreFault :
    Mnemonic.ldn ∈ [Mnemonic.jmp, .jrp, .ldn, .sto, .sub] ∧ tiny8.wordCount ≤ 4 ∧
    fetchPair tiny8 (advanceCI tiny8 (tiny 0#8 0#8 [(1, 0x44#8)])) = .ok (.ldn, 4) ∧
    Mnemonic.ldn ≠ .num ∧ Mnemonic.ldn ∈ Config.baby32.needsOperand ∧
    Mnemonic.ldn ∈ Config.baby32.addrTyped ∧ parseNat "32".toList = some 32 ∧
    Config.baby32.wordCount ≤ 32 ∧ decode 0x0000401F#32 = .ok (.ldn 31) := by decide

theorem witness_ExecBeyondTheStoreSetsTheFaultMark :
    32 ≤ 32 ∧ exec (.sto 32) State.reset = .next ⟨State.reset.setFault (some (.boundsError 32))⟩ :=
  ⟨by decide, of_answers (by decide)⟩

theorem witness_AbortedCycleLeavesOnlyStepOne :
    (tiny 0#8 0#8 [(1, 0x44#8)]).fault = none ∧
    (cycleOf tiny8 (tiny 0#8 0#8 [(1, 0x44#8)])).fault ≠ none := by decide

theorem witness_FaultedEngineTakesNoCycle :
    (⟨(paused 0#32 0#32 []).setFault (some .lengthError)⟩ : State).fault = some .lengthError ∧
    (⟨(paused 0#32 0#32 []).setFault (some .lengthError)⟩ : State).cancel = false := by decide

theorem witness_FullModelsNeverFault :
    Config.baby32.Valid ∧ (∀ p, Config.baby32.optable.lookup p ≠ none) ∧
    2 ^ Config.baby32.addrLen ≤ Config.baby32.wordCount ∧ Config.baby32.overflow ≠ .reject ∧
    State.reset.fault = none :=
  ⟨Config.baby32_valid, by decide, by decide, by decide, by decide⟩

theorem witness_Baby32NeverFaults : (running 0xFFFFFFFF#32 0#32 []).fault = none := by decide

/-- In the store at its last address, and the first address beyond a store. -/
theorem witness_JmpCopiesTheStoreWordToCI :
    31 < 32 ∧ tiny8.wordCount ≤ 4 ∧
    fetchPair tiny8 (advanceCI tiny8 (tiny 0#8 0#8 [(1, 0x04#8)])) = .ok (.jmp, 4) := by decide

theorem witness_JrpAddsTheStoreWordToCI :
    31 < 32 ∧ FitsSigned ((cellRead [(31, 0x7FFFFFFF#32)] 31).toInt + (0#32).toInt) 32 := by decide

theorem witness_LdnNegatesTheStoreWordIntoA :
    31 < 32 ∧ (cellRead [(31, 0x80000001#32)] 31).toInt ≠ -2147483648 ∧
    cellRead [(31, 0x80000000#32)] 31 = 0x80000000#32 := by decide

theorem witness_SubSubtractsTheStoreWordFromA :
    31 < 32 ∧ FitsSigned ((0xFFFFFFFF#32).toInt - (cellRead [(31, 0x7FFFFFFF#32)] 31).toInt) 32 := by decide

theorem witness_StoCopiesAToTheStore :
    31 < 32 ∧ 30 ≠ effectiveAddress 31 ∧ tiny8.wordCount ≤ 4 ∧
    fetchPair tiny8 (advanceCI tiny8 (tiny 0#8 0#8 [(1, 0x64#8)])) = .ok (.sto, 4) := by decide

/-- The greatest negative and the least non-negative A. -/
theorem witness_CmpSkipsWhenAIsNegative :
    (running 30#32 0xFFFFFFFF#32 []).a.toInt < 0 ∧ 0 ≤ (running 30#32 0#32 []).a.toInt ∧
    (running 30#32 0xFFFFFFFF#32 [(31, 0x0000C01F#32)]).Running ∧
    nextInstr (running 30#32 0xFFFFFFFF#32 [(31, 0x0000C01F#32)]) = .ok (.cmp 31) ∧ 31 < 32 :=
  ⟨by decide, by decide, running_running _ _ _, by decide, by decide⟩

theorem witness_StpHaltsTheMachine :
    (running 30#32 0#32 [(31, 0xFFFFFFFF#32)]).Running ∧
    nextInstr (running 30#32 0#32 [(31, 0xFFFFFFFF#32)]) = .ok (.stp 31) ∧
    (paused 30#32 0#32 []).halted ≠ (running 30#32 0#32 []).halted ∧ 31 < 32 ∧
    0xFFFFFFFF#32 &&& 0xE000#32 = 0xE000#32 :=
  ⟨running_running _ _ _, by decide, by decide, by decide, by decide⟩

/-- Targets 0 and 31. -/
theorem witness_JmpTargetsAreOneLess :
    0 < 32 ∧ 31 < 32 ∧ (running 5#32 0#32 [(6, 0x00000017#32), (23, 31#32)]).Running ∧
    nextInstr (running 5#32 0#32 [(6, 0x00000017#32), (23, 31#32)]) = .ok (.jmp 23) :=
  ⟨by decide, by decide, running_running _ _ _, by decide⟩

/-- Offsets 0, -1 and -2 for the JRP at address 10. -/
theorem witness_JrpIsRelativeToItsOwnAddress :
    (running 9#32 0#32 [(10, 0x0000200B#32)]).Running ∧
    nextInstr (running 9#32 0#32 [(10, 0x0000200B#32)]) = .ok (.jrp 11) ∧
    nextInstr (running 9#32 0#32 [(10, 0x0000200B#32), (11, 0xFFFFFFFF#32)]) = .ok (.jrp 11) ∧
    nextInstr (running 9#32 0#32 [(10, 0x0000200B#32), (11, 0xFFFFFFFE#32)]) = .ok (.jrp 11) ∧
    (cellRead [(10, 0x0000200B#32)] 11).toInt = 0 ∧
    (cellRead [(10, 0x0000200B#32), (11, 0xFFFFFFFF#32)] 11).toInt = -1 ∧
    (cellRead [(10, 0x0000200B#32), (11, 0xFFFFFFFE#32)] 11).toInt = -2 :=
  ⟨running_running _ _ _, by decide, by decide, by decide, by decide, by decide, by decide⟩

theorem witness_TransfersLeaveAAndTheStore :
    Instr.cmp 0 ∈ [Instr.jmp 0, .jrp 0, .cmp 0] ∧ (running 2#32 0#32 [(3, 0x0000C000#32)]).Running ∧
    nextInstr (running 2#32 0#32 [(3, 0x0000C000#32)]) = .ok (.cmp 0) ∧
    nextInstr (running 2#32 0#32 []) = .ok (.jmp 0) ∧
    nextInstr (running 2#32 0#32 [(3, 0x00002000#32)]) = .ok (.jrp 0) :=
  ⟨by decide, running_running _ _ _, by decide, by decide, by decide⟩

/-- The CMP at 30 and at 31, and two values of CI with one residue. -/
theorem witness_OnlyTheResidueOfCIMatters :
    (running 31#32 0#32 []).ci.toNat = 31 ∧
    (running 29#32 0xFFFFFFFF#32 [(30, 0x0000C000#32)]).Running ∧
    nextInstr (running 29#32 0xFFFFFFFF#32 [(30, 0x0000C000#32)]) = .ok (.cmp 0) ∧
    nextFetch Config.baby32 (running 29#32 0xFFFFFFFF#32 [(30, 0x0000C000#32)]).toEngineState = 30 ∧
    nextInstr (running 30#32 0xFFFFFFFF#32 [(31, 0x0000C000#32)]) = .ok (.cmp 0) ∧
    nextFetch Config.baby32 (running 30#32 0xFFFFFFFF#32 [(31, 0x0000C000#32)]).toEngineState = 31 ∧
    (running 29#32 0xFFFFFFFF#32 []).a.toInt < 0 ∧
    nextInstr (running 29#32 0#32 [(0, 0xFFFFFFFF#32)]) = .ok (.jmp 0) ∧
    nextInstr (running 9#32 0#32 [(10, 0x0000200B#32), (11, 32#32)]) = .ok (.jrp 11) ∧
    FitsSigned ((cellRead [(10, 0x0000200B#32), (11, 32#32)] 11).toInt + (10 : Nat)) 32 ∧
    (0xFFFFFFFD#32).toNat % 32 = (running 29#32 0#32 []).ci.toNat % 32 :=
  ⟨by decide, running_running _ _ _, by decide, by decide, by decide, by decide, by decide, by decide,
    by decide, by decide, by decide⟩

/-- The word stored is the next one fetched, and it is not. -/
theorem witness_StoredWordsAreFetchedAtOnce :
    (running 1#32 0x0000E000#32 [(2, 0x00006003#32)]).Running ∧
    nextInstr (running 1#32 0x0000E000#32 [(2, 0x00006003#32)]) = .ok (.sto 3) ∧
    nextInstr (running 1#32 0x0000E000#32 [(2, 0x00006002#32)]) = .ok (.sto 2) ∧
    step (running 1#32 0x0000E000#32 [(2, 0x00006003#32)]) =
      .next ⟨(running 2#32 0x0000E000#32 [(2, 0x00006003#32), (3, 0x0000E000#32)]).record
        ⟨2, .sto, 3⟩⟩ :=
  ⟨running_running _ _ _, by decide, by decide, of_answers (by decide)⟩

/-- Steps that change A, the store, `halted` and CI beyond the store: the tests above. -/
theorem witness_OnlyTheNamedInstructionsWrite :
    step (running 0#32 0#32 [(1, 0x00000002#32), (2, 32#32)]) =
      .next ⟨(running 32#32 0#32 [(1, 0x00000002#32), (2, 32#32)]).record ⟨1, .jmp, 2⟩⟩ ∧
    step (running 0#32 0#32 [(1, 0x00004001#32)]) =
      .next ⟨(running 1#32 0xFFFFBFFF#32 [(1, 0x00004001#32)]).record ⟨1, .ldn, 1⟩⟩ ∧
    step (running 0#32 9#32 [(1, 0x00006001#32)]) =
      .next ⟨(running 1#32 9#32 [(1, 9#32)]).record ⟨1, .sto, 1⟩⟩ ∧
    step (running 0#32 9#32 [(1, 0x0000E000#32)]) =
      .next ⟨(paused 1#32 9#32 [(1, 0x0000E000#32)]).record ⟨1, .stp, 0⟩⟩ :=
  ⟨of_answers (by decide), of_answers (by decide), of_answers (by decide), of_answers (by decide)⟩

theorem witness_RunsEndExactlyAtStp :
    (running 0#32 9#32 [(1, 0x0000E000#32)]).Running ∧
    step (running 0#32 9#32 [(1, 0x0000E000#32)]) =
      .next ⟨(paused 1#32 9#32 [(1, 0x0000E000#32)]).record ⟨1, .stp, 0⟩⟩ :=
  ⟨running_running _ _ _, of_answers (by decide)⟩

/-- The one-instruction run: an STP at address 1. -/
theorem witness_TheEndOfARunIsAtAnStp :
    RunEnds [(1, 0x0000E000#32)] 1
      ⟨((startOfRun [(1, 0x0000E000#32)]).setCI 1#32 |>.setHalted true).record ⟨1, .stp, 0⟩⟩ where
  before := by
    intro k hk u hu
    obtain rfl : k = 0 := by omega
    cases hu
    decide
  reached := rfl
  ended := by decide

theorem witness_ObserverItemsAreNeverRead :
    SameMachine (running 5#32 0#32 [])
      ⟨((running 5#32 0#32 []).record ⟨1, .jmp, 2⟩).setSpeed 7⟩ ∧
    step (running 5#32 0#32 []) = .next ⟨((running 5#32 0#32 []).setCI 0#32).record ⟨6, .jmp, 0⟩⟩ :=
  ⟨⟨rfl, rfl, rfl, rfl, rfl, rfl⟩, of_answers (by decide)⟩

theorem running_inv : State.Inv (running 5#32 0#32 [(31, 1#32)]) where
  engine :=
    { store_canonical := by decide
      speed_positive := by decide
      last_none_iff := by decide
      last_in_range := by intro d hd; cases hd; decide }
  no_fault := rfl

theorem witness_EveryStepKeepsTheInvariant :
    State.Inv (running 5#32 0#32 [(31, 1#32)]) ∧
    step (running 5#32 0#32 [(31, 1#32)]) =
      .next ⟨((running 5#32 0#32 [(31, 1#32)]).setCI 0#32).record ⟨6, .jmp, 0⟩⟩ :=
  ⟨running_inv, of_answers (by decide)⟩

theorem witness_EveryHostMoveKeepsTheInvariant :
    State.Inv (running 5#32 0#32 [(31, 1#32)]) ∧
    move (.host (.setSpeed 2)) (running 5#32 0#32 [(31, 1#32)]) =
      .next ⟨(running 5#32 0#32 [(31, 1#32)]).setSpeed 2⟩ ∧
    move (.host (.load "0 STP".toList)) State.reset =
      .next ⟨State.reset.setStore [(0, 0x0000E000#32)]⟩ :=
  ⟨running_inv, of_answers (by decide), of_answers (by decide)⟩

theorem witness_EveryModelKeepsTheEngineInvariant :
    tiny8.Valid ∧ EngineState.Inv tiny8 (tiny 0#8 0#8 [(1, 0x20#8)]) :=
  ⟨tiny8_valid, by decide, by decide, by decide, by intro d hd; cases hd⟩

/-- A load on a halted machine of `Tiny8`, and a cycle that faults. -/
theorem witness_EveryModelMoveKeepsTheEngineInvariant :
    tiny8.Valid ∧ EngineState.Inv tiny8 (EngineState.initial 8) ∧
    moveOf tiny8 (.host (.load "0 STP".toList)) (EngineState.initial 8) =
      .next ((EngineState.initial 8).setStore [(0, 0xE0#8)]) ∧
    EngineState.Inv tiny8 (tiny 0#8 0#8 [(1, 0x20#8)]) ∧
    moveOf tiny8 .loop (tiny 0#8 0#8 [(1, 0x20#8)]) =
      .next ((tiny 1#8 0#8 [(1, 0x20#8)]).setFault (some (.decodeError [true, false, false]))) :=
  ⟨tiny8_valid, ⟨by decide, by decide, by decide, by intro d hd; cases hd⟩, rfl,
    ⟨by decide, by decide, by decide, by intro d hd; cases hd⟩, rfl⟩

/-- A halted machine, a running one and a cancelled one, of `Tiny8`. -/
theorem witness_EveryVariantOffersTheFourOperations :
    (EngineState.initial 8).fault = none ∧ (EngineState.initial 8).halted = true ∧
    3 < tiny8.wordCount ∧ (tiny 0#8 0#8 []).fault = none ∧ (tiny 0#8 0#8 []).halted = false ∧
    (tiny 0#8 0#8 []).cancel = false ∧ ((tiny 0#8 0#8 []).setCancel true).cancel = true := by decide

theorem witness_ConstructionRefusesExactlyBadModels :
    tiny8.Valid ∧ ¬({ tiny8 with wordCount := 0 } : MachineModel 8).Valid :=
  ⟨tiny8_valid, fun h => absurd h.word_count (by decide)⟩

/-- A bad line, a line beyond the store, and a pass with no error. -/
theorem witness_LoadPassIsCompleteAndExact :
    dumpLine 0 "0: 12".toList = (.error .malformedBitString : Except LoadError (BitVec 2)) ∧
    dumpLine 0 "0: 11".toList = (.ok 3#2 : Except LoadError (BitVec 2)) ∧ 0 ≤ 0 ∧ 0 < 1 ∧
    (loadPass 1 dumpLine ["0: 11".toList] 0 ([] : Memory 2)).2 = [] ∧
    (loadPass 0 dumpLine ["0: 11".toList] 0 ([] : Memory 2)).2 = [(0, .tooManyLines)] ∧
    (loadPass 1 dumpLine ["0: 12".toList, "1: 11".toList] 0 ([] : Memory 2)).2 =
      [(0, .malformedBitString), (1, .tooManyLines)] := by decide

/-- A good text and a bad one, of either format, on a halted machine. -/
theorem witness_LoadIsAllOrNothing :
    detectFormat (meaningfulLines "0 STP\n1 FOO".toList) = .assemblyText ∧
    detectFormat (meaningfulLines "0: 11".toList) = .binaryDump ∧
    State.reset.fault = none ∧ State.reset.halted = true ∧
    meaningfulLines "0 STP\n1 FOO".toList = ["0 STP".toList, "1 FOO".toList] ∧
    assembleLine Config.baby32 1 "1 FOO".toList = .error .unknownMnemonic ∧
    assembleLine Config.baby32 0 "0 STP".toList = .ok 0x0000E000#32 ∧
    dumpLine 0 "0: 11".toList = (.error .malformedBitString : Except LoadError Word) := by decide

/-- A wholly good text with a line at the last address of the store. -/
theorem witness_LoadIsAllOrNothing_good :
    detectFormat (meaningfulLines (stpLines 32)) = .assemblyText ∧
    (meaningfulLines (stpLines 32)).length = 32 ∧
    (meaningfulLines (stpLines 32))[31]? = some "31 STP".toList ∧
    (List.range 32).all (fun k => ((meaningfulLines (stpLines 32))[k]?.map
      (assembleLine Config.baby32 k)) = some (.ok 0x0000E000#32)) = true := by decide

/-- A text whose only fault is its line 32, beyond the store. -/
theorem witness_LoadIsAllOrNothing_line_32 :
    detectFormat (meaningfulLines (stpLines 33)) = .assemblyText ∧
    (meaningfulLines (stpLines 33))[32]? = some "32 STP".toList ∧
    assembleLine Config.baby32 32 "32 STP".toList = .ok 0x0000E000#32 ∧ 32 ≤ 32 := by decide

theorem witness_RequestsOutsideTheirStateAreRefused :
    detectFormat (meaningfulLines "; nothing".toList) = .unknown ∧
    State.reset.fault = none ∧ State.reset.halted = true ∧
    (running 0#32 0#32 []).fault = none ∧ (running 0#32 0#32 []).halted = false ∧
    (⟨(paused 0#32 0#32 []).setFault (some .lengthError)⟩ : State).fault ≠ none ∧
    HostEvent.load [] = .load [] := by decide

theorem witness_ClearsTouchOnlyTheirOwn :
    (paused 6#32 12#32 [(6, 1#32)]).fault = none ∧ (paused 6#32 12#32 [(6, 1#32)]).halted = true := by
  decide

theorem witness_ManualStepIsOneCycleAndStaysHalted :
    (paused 6#32 12#32 [(7, 0x0000E000#32)]).fault = none ∧
    (paused 6#32 12#32 [(7, 0x0000E000#32)]).halted = true := by decide

theorem witness_ControlInputsAreWrittenAlone :
    (0 : Rat) < 1 ∧ (0 : Rat) ≤ 0 ∧ (running 0#32 0#32 []).fault = none := by decide

end Sys2Proof.Tests
end

/-!
SUPPORT and proofs of the statements of spec/00_scope.md: `from_int` (R11, R12), `engrave` and `slice`
(R15, R16), bit strings (R14, R18) and construction (R5).
-/

namespace Sys2Proof.Machine

section Words

variable {n m : Nat}

/-! ### `from_int` -/

/-- Bits below `n` do not see a reduction modulo `2^n`. -/
theorem emod_two_pow_ediv_emod_two {i : Nat} (hi : i < n) (x : Int) :
    x % 2 ^ n / 2 ^ i % 2 = x / 2 ^ i % 2 := by
  obtain ⟨k, rfl⟩ : ∃ k, n = i + (k + 1) := ⟨n - i - 1, by omega⟩
  have hpow : (2 : Int) ^ (i + (k + 1)) = 2 ^ i * (2 * 2 ^ k) := by ring
  have hdiv : x / 2 ^ i = x % 2 ^ (i + (k + 1)) / 2 ^ i + 2 * (2 ^ k * (x / 2 ^ (i + (k + 1)))) := by
    calc x / 2 ^ i
        = (x % 2 ^ (i + (k + 1)) + 2 ^ i * (2 * 2 ^ k * (x / 2 ^ (i + (k + 1))))) / 2 ^ i := by
          rw [← mul_assoc, ← hpow, Int.emod_add_mul_ediv]
      _ = _ := by rw [Int.add_mul_ediv_left _ _ (by positivity), mul_assoc]
  omega

/-- The unsigned value of `from_int` is the residue (R12). -/
theorem wrapInt_toNat (x : Int) (n : Nat) : ((wrapInt x n).toNat : Int) = x % 2 ^ n := by
  rw [wrapInt, BitVec.toNat_ofInt, Int.toNat_of_nonneg (Int.emod_nonneg _ (by positivity))]
  norm_num

/-- Bit `i` of `from_int` is `floor(x / 2^i) mod 2` (R11). -/
theorem wrapInt_getLsbD {i : Nat} (hi : i < n) (x : Int) :
    (wrapInt x n).getLsbD i = decide (x / 2 ^ i % 2 = 1) := by
  have hbit : ((wrapInt x n).toNat / 2 ^ i % 2 : Nat) = x / 2 ^ i % 2 := by
    push_cast
    rw [wrapInt_toNat, emod_two_pow_ediv_emod_two hi]
  rw [BitVec.getLsbD, Nat.testBit_eq_decide_div_mod_eq, ← hbit]
  norm_cast

/-- In range `to_int` gives the integer back (R11). -/
theorem wrapInt_toInt_of_fits {x : Int} (hn : 1 ≤ n) (h : FitsSigned x n) :
    (wrapInt x n).toInt = x :=
  BitVec.toInt_ofInt_eq_self hn h.1 (Int.lt_of_le_sub_one h.2)

/-- The signed value of `from_int` is the residue moved into the signed range (R12). -/
theorem wrapInt_toInt (hn : 1 ≤ n) (x : Int) :
    (wrapInt x n).toInt = (x + 2 ^ (n - 1)) % 2 ^ n - 2 ^ (n - 1) := by
  obtain ⟨k, rfl⟩ := Nat.exists_eq_add_of_le' hn
  have hpos : (0 : Int) < 2 ^ (k + 1) := by positivity
  have hlow := Int.emod_nonneg (x + 2 ^ k) hpos.ne'
  have hhigh := Int.emod_lt_of_pos (x + 2 ^ k) hpos
  have hcongr : (2 : Int) ^ (k + 1) ∣ (x + 2 ^ k) % 2 ^ (k + 1) - 2 ^ k - x := by
    rw [sub_sub, add_comm _ x]
    exact (Int.mod_modEq (x + 2 ^ k) (2 ^ (k + 1))).symm.dvd
  rw [wrapInt, BitVec.toInt_ofInt, Int.bmod_eq_iff (by positivity)]
  push_cast
  exact ⟨by omega, by omega, hcongr⟩

/-! ### `engrave` and `slice` -/

/-- All that `engrave` can do: the range test is on the wrapped index (R16). -/
theorem engrave_eq (w : BitVec n) (index : Int) (other : BitVec m) :
    engrave w index other =
      if (index % (n : Int)).toNat + m ≤ n then .ok (splice w (index % (n : Int)).toNat other)
      else .error (.rangeError index m) := rfl

/-- The range a splice wrote holds the spliced word. -/
theorem extractLsb'_splice {i : Nat} (w : BitVec n) (other : BitVec m) (hi : i + m ≤ n) :
    (splice w i other).extractLsb' i m = other := by
  refine BitVec.eq_of_getLsbD_eq fun k hk => ?_
  rw [BitVec.getLsbD_extractLsb', splice_getLsbD w i other hi, if_pos (by omega)]
  simp [hk]

/-! ### Bit strings -/

@[simp] theorem length_bitList (w : BitVec n) : (bitList w).length = n := by simp [bitList]

theorem bitList_getElem? (w : BitVec n) {k : Nat} (hk : k < n) :
    (bitList w)[k]? = some (w.getLsbD k) := by simp [bitList, hk]

/-- `from_bits` of a word's own bits is the word (R14). -/
theorem fromBits_bitList (w : BitVec n) (h : (bitList w).length = n) :
    (fromBits (bitList w)).cast h = w := by
  refine BitVec.eq_of_getLsbD_eq fun k hk => ?_
  rw [BitVec.getLsbD_cast, fromBits, BitVec.getLsbD_ofBoolListLE, List.getD_eq_getElem?_getD,
    bitList_getElem? w hk, Option.getD_some]

@[simp] theorem length_renderWith (clear set : Char) (w : BitVec n) :
    (renderWith clear set w).length = n := by simp [renderWith]

/-- Character `k` is the glyph of bit `k` (R18). -/
theorem renderWith_getElem? (clear set : Char) (w : BitVec n) {k : Nat} (hk : k < n) :
    (renderWith clear set w)[k]? = some (if w.getLsbD k then set else clear) := by
  rw [renderWith, List.getElem?_map, bitList_getElem? w hk, Option.map_some]

theorem bitOfChar_digit (b : Bool) : bitOfChar (if b then '1' else '0') = some b := by
  cases b <;> rfl

theorem bitsOfText_digits (bits : List Bool) :
    bitsOfText (bits.map fun b => if b then '1' else '0') = some bits := by
  induction bits with
  | nil => rfl
  | cons b bits ih => rw [List.map_cons, bitsOfText, bitOfChar_digit, ih]

/-- A word written with `0` and `1` is read back at its own length only (R14, 30_encoding.md R78). -/
theorem fromString_renderWith_digits (w : BitVec n) (k : Nat) :
    fromString (renderWith '0' '1' w) k = if h : n = k then some (w.cast h) else none := by
  rw [fromString, renderWith, bitsOfText_digits]
  by_cases h : n = k
  · subst h
    simp [fromBits_bitList]
  · simp [h]

/-! ### Construction -/

/-- Construction from a valid model gives the reset state (R5, 70_reset_and_hazards.md R180). -/
theorem newMachine_of_valid {M : MachineModel n} (h : M.Valid) :
    newMachine M = .next (EngineState.initial n) := if_pos (MachineModel.valid_iff.2 h)

/-- Construction refuses every other model (R5, D7). -/
theorem newMachine_of_not_valid {M : MachineModel n} (h : ¬M.Valid) :
    newMachine M = .refused .invalidModel := if_neg fun hv => h (MachineModel.valid_iff.1 hv)

end Words

/-! ### The statements -/

/-- Settles O1: in range every policy gives `wrapInt`, whose readings are known. -/
theorem fromIntRoundTripsInRange : Obligations.FromIntRoundTripsInRange := by
  intro policy n x hn hlow hhigh
  have hfits : FitsSigned x n := ⟨hlow, hhigh⟩
  exact ⟨wrapInt x n, fromInt_of_fits hfits policy, wrapInt_toInt_of_fits hn hfits,
    fun i hi => wrapInt_getLsbD hi x⟩

/-- Settles O2: both readings of `wrapInt`, over every integer. -/
theorem wrapGivesTheResidue : Obligations.WrapGivesTheResidue := fun n x hn =>
  ⟨wrapInt x n, fromInt_wrap x n, wrapInt_toNat x n, wrapInt_toInt hn x⟩

/-- Settles O4: the bits of the splice at the wrapped index. -/
theorem engraveThenSliceGivesTheWordBack : Obligations.EngraveThenSliceGivesTheWordBack := by
  intro n m w index other _ hm
  rw [engrave_eq]
  generalize (index % (n : Int)).toNat = i
  constructor
  · intro hout
    exact if_neg (by omega)
  · intro hin
    refine ⟨splice w i other, if_pos hin, fun k hk => ?_, fun j hj => ?_, ?_⟩
    · rw [splice_getLsbD w i other hin, if_pos (by omega), Nat.add_sub_cancel_left]
    · rw [splice_getLsbD w i other hin, if_neg (by omega)]
    · rw [slice_of_inside hm hin, extractLsb'_splice w other hin]

/-- Settles O5: the text read at any length, and its characters. -/
theorem bitStringsReadBackIndexZeroFirst : Obligations.BitStringsReadBackIndexZeroFirst := by
  intro n w
  refine ⟨?_, fun k hk => ?_, length_renderWith '0' '1' w, fun k hk => renderWith_getElem? '0' '1' w hk⟩
  · rw [fromString_renderWith_digits, dif_pos rfl, BitVec.cast_eq]
  · rw [fromString_renderWith_digits, dif_neg hk.symm]

/-- Settles O49: the test construction runs decides the constraints. -/
theorem constructionRefusesExactlyBadModels : Obligations.ConstructionRefusesExactlyBadModels :=
  fun _ _ => ⟨newMachine_of_valid, newMachine_of_not_valid⟩

end Sys2Proof.Machine

/-!
SUPPORT and proofs of the statements of spec/10_state.md: what an execute step, a cycle, a step and a move can
do to the state, the invariant (R25, R26, R32), and that the observer's items are never read (R24 to R26).
-/

namespace Sys2Proof.Machine

section ExecuteStep

variable {W : Nat} {M : MachineModel W} {m : Mnemonic} {S : Nat} {s t : EngineState W}

/-! ### Mapping over an answer -/

theorem exceptMap_eq_ok {ε α β : Type} {f : α → β} {x : Except ε α} {b : β} :
    x.map f = .ok b ↔ ∃ a, x = .ok a ∧ f a = b := by
  cases x <;> simp [Except.map]

/-- A guarded value mapped twice. -/
theorem exceptMap_guarded {ε α β γ : Type} {c : Prop} [Decidable c] (f : α → β) (g : β → γ)
    (x : Except ε α) (e : ε) :
    (if c then x.map f else .error e).map g = if c then x.map (g ∘ f) else .error e := by
  split
  · cases x <;> rfl
  · rfl

/-! ### The execute step of each instruction: its operand is a store word, or it raises `BoundsError` -/

theorem doJmp_eq : doJmp M S s =
    if S < M.wordCount then .ok (s.setCI (cellRead s.store S)) else .error (.boundsError S) := by
  by_cases hS : S < M.wordCount <;> simp [doJmp, readOperand_eq, hS]

theorem doJrp_eq : doJrp M S s =
    if S < M.wordCount then
      (fromInt M.overflow ((cellRead s.store S).toInt + s.ci.toInt) W).map s.setCI
    else .error (.boundsError S) := by
  by_cases hS : S < M.wordCount
  · simp only [doJrp, readOperand_eq, if_pos hS]
    cases fromInt M.overflow ((cellRead s.store S).toInt + s.ci.toInt) W <;> rfl
  · simp only [doJrp, readOperand_eq, if_neg hS]

theorem doLdn_eq : doLdn M S s =
    if S < M.wordCount then (fromInt M.overflow (-(cellRead s.store S).toInt) W).map s.setA
    else .error (.boundsError S) := by
  by_cases hS : S < M.wordCount
  · simp only [doLdn, readOperand_eq, if_pos hS]
    cases fromInt M.overflow (-(cellRead s.store S).toInt) W <;> rfl
  · simp only [doLdn, readOperand_eq, if_neg hS]

theorem doSto_eq : doSto M S s =
    if S < M.wordCount then .ok (s.setStore (cellWrite s.store S s.a)) else .error (.boundsError S) :=
  writeOperand_eq S s.a s

theorem doSub_eq : doSub M S s =
    if S < M.wordCount then
      (fromInt M.overflow (s.a.toInt - (cellRead s.store S).toInt) W).map s.setA
    else .error (.boundsError S) := by
  by_cases hS : S < M.wordCount
  · simp only [doSub, readOperand_eq, if_pos hS]
    cases fromInt M.overflow (s.a.toInt - (cellRead s.store S).toInt) W <;> rfl
  · simp only [doSub, readOperand_eq, if_neg hS]

theorem doCmp_eq : doCmp M s = .ok (if s.a.toInt < 0 then s.setCI (nextCI M s.ci) else s) := by
  simp [doCmp, isNegative]

/-! ### The execute step that raises nothing, as a relation -/

/-- `Executes M m S s t`: the instruction `m S`, executed in `s`, raises nothing and leaves `t`
(40_instruction_cycle.md R94; tied to `executeOf` by `executeOf_eq_ok`). -/
inductive Executes {W : Nat} (M : MachineModel W) :
    Mnemonic → Nat → EngineState W → EngineState W → Prop
  | jmp {S : Nat} {s : EngineState W} (hS : S < M.wordCount) :
      Executes M .jmp S s (s.setCI (cellRead s.store S))
  | jrp {S : Nat} {s : EngineState W} {v : BitVec W} (hS : S < M.wordCount)
      (hv : fromInt M.overflow ((cellRead s.store S).toInt + s.ci.toInt) W = .ok v) :
      Executes M .jrp S s (s.setCI v)
  | ldn {S : Nat} {s : EngineState W} {v : BitVec W} (hS : S < M.wordCount)
      (hv : fromInt M.overflow (-(cellRead s.store S).toInt) W = .ok v) :
      Executes M .ldn S s (s.setA v)
  | sto {S : Nat} {s : EngineState W} (hS : S < M.wordCount) :
      Executes M .sto S s (s.setStore (cellWrite s.store S s.a))
  | sub {S : Nat} {s : EngineState W} {v : BitVec W} (hS : S < M.wordCount)
      (hv : fromInt M.overflow (s.a.toInt - (cellRead s.store S).toInt) W = .ok v) :
      Executes M .sub S s (s.setA v)
  | cmpSkip {S : Nat} {s : EngineState W} (ha : s.a.toInt < 0) :
      Executes M .cmp S s (s.setCI (nextCI M s.ci))
  | cmpStay {S : Nat} {s : EngineState W} (ha : ¬s.a.toInt < 0) : Executes M .cmp S s s
  | stp {S : Nat} {s : EngineState W} : Executes M .stp S s (s.setHalted true)

/-- An execute step that answers a state is one of the relation's. -/
theorem executes_of_executeOf (h : executeOf M m S s = .ok t) : Executes M m S s t := by
  cases m with
  | jmp =>
    rw [executeOf, doJmp_eq] at h
    split at h
    · next hS => cases h; exact .jmp hS
    · cases h
  | jrp =>
    rw [executeOf, doJrp_eq] at h
    split at h
    · next hS => obtain ⟨v, hv, rfl⟩ := exceptMap_eq_ok.1 h; exact .jrp hS hv
    · cases h
  | ldn =>
    rw [executeOf, doLdn_eq] at h
    split at h
    · next hS => obtain ⟨v, hv, rfl⟩ := exceptMap_eq_ok.1 h; exact .ldn hS hv
    · cases h
  | sto =>
    rw [executeOf, doSto_eq] at h
    split at h
    · next hS => cases h; exact .sto hS
    · cases h
  | sub =>
    rw [executeOf, doSub_eq] at h
    split at h
    · next hS => obtain ⟨v, hv, rfl⟩ := exceptMap_eq_ok.1 h; exact .sub hS hv
    · cases h
  | cmp =>
    rw [executeOf, doCmp_eq] at h
    cases h
    split
    · next ha => exact .cmpSkip ha
    · next ha => exact .cmpStay ha
  | stp => cases h; exact .stp
  | num => cases h

/-- The relation says exactly when the execute step answers a state, and which. -/
theorem executeOf_eq_ok : executeOf M m S s = .ok t ↔ Executes M m S s t := by
  refine ⟨executes_of_executeOf, fun h => ?_⟩
  cases h with
  | jmp hS => exact doJmp_eq.trans (if_pos hS)
  | jrp hS hv => rw [executeOf, doJrp_eq, if_pos hS, hv]; rfl
  | ldn hS hv => rw [executeOf, doLdn_eq, if_pos hS, hv]; rfl
  | sto hS => exact doSto_eq.trans (if_pos hS)
  | sub hS hv => rw [executeOf, doSub_eq, if_pos hS, hv]; rfl
  | cmpSkip ha => rw [executeOf, doCmp_eq, if_pos ha]
  | cmpStay ha => rw [executeOf, doCmp_eq, if_neg ha]
  | stp => rfl

/-- With a store address for operand and no reject policy, nothing is raised (60_exceptions.md R152, R155). -/
theorem exists_executes (hm : m ≠ .num) (hS : S < M.wordCount) (hpolicy : M.overflow ≠ .reject)
    (s : EngineState W) : ∃ t, Executes M m S s t := by
  have hfrom (x : Int) : ∃ v, fromInt M.overflow x W = .ok v := by
    cases hx : fromInt M.overflow x W with
    | ok v => exact ⟨v, rfl⟩
    | error e => exact absurd (fromInt_error hx).1 hpolicy
  cases m with
  | jmp => exact ⟨_, .jmp hS⟩
  | jrp => exact (hfrom _).imp' _ fun _ hv => .jrp hS hv
  | ldn => exact (hfrom _).imp' _ fun _ hv => .ldn hS hv
  | sto => exact ⟨_, .sto hS⟩
  | sub => exact (hfrom _).imp' _ fun _ hv => .sub hS hv
  | cmp => exact (lt_or_ge s.a.toInt 0).elim (⟨_, .cmpSkip ·⟩) (⟨_, .cmpStay <| not_lt.2 ·⟩)
  | stp => exact ⟨_, .stp⟩
  | num => exact absurd rfl hm

namespace Executes

/-! ### The frame of an execute step (10_state.md R20, the column "written by") -/

theorem a_eq (h : Executes M m S s t) : t.a = s.a ∨ m = .ldn ∨ m = .sub := by
  cases h <;> simp

theorem store_eq (h : Executes M m S s t) :
    t.store = s.store ∨ m = .sto ∧ S < M.wordCount ∧ t.store = cellWrite s.store S s.a := by
  cases h with
  | sto hS => exact .inr ⟨rfl, hS, rfl⟩
  | _ => exact .inl rfl

theorem halted_eq (h : Executes M m S s t) : t.halted = s.halted ∨ m = .stp ∧ t.halted = true := by
  cases h <;> simp

theorem ci_eq (h : Executes M m S s t) :
    t.ci = s.ci ∨ t.ci = nextCI M s.ci ∨ m = .jmp ∨ m = .jrp := by
  cases h <;> simp

theorem cycles_eq (h : Executes M m S s t) : t.cycles = s.cycles := by cases h <;> rfl

theorem last_eq (h : Executes M m S s t) : t.last = s.last := by cases h <;> rfl

theorem speed_eq (h : Executes M m S s t) : t.speed = s.speed := by cases h <;> rfl

theorem cancel_eq (h : Executes M m S s t) : t.cancel = s.cancel := by cases h <;> rfl

theorem fault_eq (h : Executes M m S s t) : t.fault = s.fault := by cases h <;> rfl

/-- An execute step keeps the canonical form of the store (20_memory.md R40). -/
theorem store_wf (h : Executes M m S s t) (hs : Memory.wf M.wordCount s.store = true) :
    Memory.wf M.wordCount t.store = true := by
  rcases h.store_eq with ht | ⟨-, hS, ht⟩
  · rwa [ht]
  · rw [ht]
    exact wf_write hs hS s.a

end Executes

end ExecuteStep

section Cycle

variable {W : Nat} {M : MachineModel W} {m : Mnemonic} {S : Nat} {s t : EngineState W}

/-! ### The cycle of every model (40_instruction_cycle.md R90) -/

theorem cycleOf_of_fetchPair_error {e : EngineError} (h : fetchPair M (advanceCI M s) = .error e) :
    cycleOf M s = (advanceCI M s).setFault (some e) := by
  simp only [cycleOf, h, takeError_eq_setFault]

theorem cycleOf_of_executeOf_error {e : EngineError} (h : fetchPair M (advanceCI M s) = .ok (m, S))
    (he : executeOf M m S (advanceCI M s) = .error e) :
    cycleOf M s = (advanceCI M s).setFault (some e) := by
  simp only [cycleOf, h, he, takeError_eq_setFault]

theorem cycleOf_of_executes (h : fetchPair M (advanceCI M s) = .ok (m, S))
    (he : Executes M m S (advanceCI M s) t) :
    cycleOf M s = t.record ⟨(advanceCI M s).ci.toNat, m, S⟩ := by
  simp only [cycleOf, h, executeOf_eq_ok.2 he]

/-- All that a cycle can do: it faults after step 1, or executes the fetched pair and records it. -/
theorem cycleOf_cases (M : MachineModel W) (s : EngineState W) :
    (∃ e, cycleOf M s = (advanceCI M s).setFault (some e)) ∨
    ∃ m S t, fetchPair M (advanceCI M s) = .ok (m, S) ∧ Executes M m S (advanceCI M s) t ∧
      cycleOf M s = t.record ⟨(advanceCI M s).ci.toNat, m, S⟩ := by
  cases hf : fetchPair M (advanceCI M s) with
  | error e => exact .inl ⟨e, cycleOf_of_fetchPair_error hf⟩
  | ok p =>
    obtain ⟨m, S⟩ := p
    cases he : executeOf M m S (advanceCI M s) with
    | error e => exact .inl ⟨e, cycleOf_of_executeOf_error hf he⟩
    | ok t =>
      have ht := executes_of_executeOf he
      exact .inr ⟨m, S, t, rfl, ht, cycleOf_of_executes hf ht⟩

/-- All that an iteration of the run loop can answer (R97): the state kept by a loop that has ended or idles,
or the cycle of a running machine. -/
theorem loopOf_next : loopOf M s = .next t ↔
    (s.cancel = true ∨ s.fault = none ∧ s.halted = true) ∧ t = s ∨ s.Running ∧ t = cycleOf M s := by
  have hrun : s.Running ↔ s.cancel = false ∧ s.fault = none ∧ s.halted = false :=
    ⟨fun ⟨hc, hf, hh⟩ => ⟨hc, hf, hh⟩, fun ⟨hc, hf, hh⟩ => ⟨hc, hf, hh⟩⟩
  unfold loopOf
  cases hc : s.cancel with
  | true => simpa [hrun, hc] using eq_comm
  | false =>
    cases hf : s.fault with
    | some e => simp [hrun, hf]
    | none => cases hh : s.halted <;> simp [hrun, hc, hf, hh, eq_comm]

/-! ### What a store word of a valid model decodes to (30_encoding.md R65) -/

theorem mem_of_lookup {α β : Type} [BEq α] [LawfulBEq α] {l : List (α × β)} {k : α} {b : β}
    (h : l.lookup k = some b) : (k, b) ∈ l := by
  obtain ⟨l₁, l₂, rfl, -⟩ := List.lookup_eq_some_iff.1 h
  simp

/-- A word of a valid model that decodes gives a mnemonic of its table, never NUM, and a field value. -/
theorem decodePair_ok (hM : M.Valid) {w : BitVec W} (h : decodePair M w = .ok (m, S)) :
    m ∈ M.optable.map Prod.snd ∧ m ≠ .num ∧ S < 2 ^ M.addrLen := by
  rw [decodePair_storeWord hM] at h
  cases hl : M.optable.lookup (w.extractLsb' M.opStart M.opLen) with
  | none => simp only [hl] at h; cases h
  | some m' =>
    simp only [hl] at h
    cases h
    have hmem : m ∈ M.optable.map Prod.snd := List.mem_map_of_mem (mem_of_lookup hl)
    exact ⟨hmem, fun hnum => hM.num_absent (hnum ▸ hmem), BitVec.isLt _⟩

/-- With every pattern mapped, every word decodes. -/
theorem exists_decodePair (hM : M.Valid) (htable : ∀ p, M.optable.lookup p ≠ none) (w : BitVec W) :
    ∃ m S, decodePair M w = .ok (m, S) := by
  obtain ⟨m, hm⟩ := Option.ne_none_iff_exists'.1 (htable (w.extractLsb' M.opStart M.opLen))
  exact ⟨m, (w.extractLsb' M.addrStart M.addrLen).toNat, by simp only [decodePair_storeWord hM, hm]⟩

/-- The address a cycle fetches from is a store address (40_instruction_cycle.md R91). -/
theorem advanceCI_ci_lt (hM : M.Valid) (s : EngineState W) : (advanceCI M s).ci.toNat < M.wordCount := by
  rw [advanceCI_eq_setCI, EngineState.setCI_ci, nextCI_toNat hM.store_addressable hM.word_count]
  exact Nat.mod_lt _ hM.word_count

/-- A model whose table is full, whose operands are store addresses and whose policy is not reject completes
every cycle (R100). -/
theorem cycleOf_completes (hM : M.Valid) (htable : ∀ p, M.optable.lookup p ≠ none)
    (haddr : 2 ^ M.addrLen ≤ M.wordCount) (hpolicy : M.overflow ≠ .reject) (s : EngineState W) :
    ∃ m S t, fetchPair M (advanceCI M s) = .ok (m, S) ∧ Executes M m S (advanceCI M s) t ∧
      cycleOf M s = t.record ⟨(advanceCI M s).ci.toNat, m, S⟩ := by
  obtain ⟨m, S, hd⟩ := exists_decodePair hM htable (cellRead s.store ((s.ci.toNat + 1) % M.wordCount))
  obtain ⟨-, hm, hS⟩ := decodePair_ok hM hd
  obtain ⟨t, ht⟩ := exists_executes hm (hS.trans_le haddr) hpolicy (advanceCI M s)
  have hf := (fetchPair_advanceCI hM s).trans hd
  exact ⟨m, S, t, hf, ht, cycleOf_of_executes hf ht⟩

end Cycle

section Baby32

variable {s t : State}

/-! ### `Baby32` is the engine at its model -/

theorem exec_eq_settle (i : Instr) (s : State) :
    exec i s = settle s (executeOf Config.baby32 i.mnemonic i.operand s.toEngineState) := by
  cases i <;> rfl

theorem decode_of_decodePair {w : Word} {i : Instr}
    (h : decodePair Config.baby32 w = .ok (i.mnemonic, i.operand)) : decode w = .ok i := by
  simp only [decode, decodeIn, h, ofPair?_eq_some.2 ⟨rfl, rfl⟩]

theorem baby32_table_full (p : BitVec 3) : Config.baby32.optable.lookup p ≠ none := by
  rw [baby32_lookup]
  simpa using p.isLt

/-- No cycle of `Baby32` faults: it executes one instruction and records it (40_instruction_cycle.md R100). -/
theorem cycleOf_baby32_completes (s : EngineState 32) :
    ∃ i t, fetchPair Config.baby32 (advanceCI Config.baby32 s) = .ok (i.mnemonic, i.operand) ∧
      Executes Config.baby32 i.mnemonic i.operand (advanceCI Config.baby32 s) t ∧
      cycleOf Config.baby32 s = t.record (descriptorOf (advanceCI Config.baby32 s).ci.toNat i) := by
  obtain ⟨m, S, t, hf, ht, hc⟩ := cycleOf_completes Config.baby32_valid baby32_table_full (by decide)
    (by decide) s
  obtain ⟨i, rfl, rfl⟩ : ∃ i : Instr, i.mnemonic = m ∧ i.operand = S := by
    simp only [← ofPair?_eq_some]
    cases ht <;> exact ⟨_, rfl⟩
  exact ⟨i, t, hf, ht, hc⟩

theorem cycleOf_baby32_fault (s : EngineState 32) : (cycleOf Config.baby32 s).fault = s.fault := by
  obtain ⟨i, t, -, ht, hc⟩ := cycleOf_baby32_completes s
  rw [hc, EngineState.record_fault, ht.fault_eq, advanceCI_eq_setCI, EngineState.setCI_fault]

/-- The instruction a cycle fetches is the one the word at the next fetch address decodes to. -/
theorem nextInstr_of_fetchPair {i : Instr}
    (h : fetchPair Config.baby32 (advanceCI Config.baby32 s.toEngineState) =
      .ok (i.mnemonic, i.operand)) : nextInstr s = .ok i :=
  decode_of_decodePair ((fetchPair_advanceCI Config.baby32_valid s.toEngineState).symm.trans h)

theorem fetchInstr_beginCycle {i : Instr}
    (h : fetchPair Config.baby32 (advanceCI Config.baby32 s.toEngineState) =
      .ok (i.mnemonic, i.operand)) : fetchInstr (beginCycle s) = .ok i := by
  rw [fetchInstr, beginCycle_eq, fetchWord_advanceCI Config.baby32_valid]
  exact nextInstr_of_fetchPair h

/-- The cycle that runs `exec` is the engine's. -/
theorem cycle_eq (hfault : s.fault = none) : cycle s = .next ⟨cycleOf Config.baby32 s.toEngineState⟩ := by
  obtain ⟨i, t, hf, ht, hc⟩ := cycleOf_baby32_completes s.toEngineState
  have hexec : exec i (beginCycle s) = .next ⟨t⟩ := by
    rw [exec_eq_settle, beginCycle_eq, executeOf_eq_ok.2 ht, settle_ok]
  have hnone : t.fault = none := ht.fault_eq.trans hfault
  simp only [cycle, fetchInstr_beginCycle hf, hexec, finishCycle_next, hnone, if_true, hc]
  rfl

/-- The run loop of `Baby32` is the engine's. -/
theorem step_eq_ofEngine (s : State) : step s = ofEngine (loopOf Config.baby32 s.toEngineState) := by
  unfold step loopIteration loopOf
  cases s.cancel with
  | true => rfl
  | false =>
    cases hf : s.fault with
    | some e => rfl
    | none =>
      cases s.halted with
      | true => rfl
      | false => exact cycle_eq hf

/-- Every move of `Baby32` is the engine's (R103). -/
theorem move_eq_ofEngine (x : Move) (s : State) :
    move x s = ofEngine (moveOf Config.baby32 x s.toEngineState) := by
  cases x with
  | loop => exact step_eq_ofEngine s
  | host e =>
    cases e with
    | manualStep =>
      show hostManualStep s = ofEngine (manualStepOf Config.baby32 s.toEngineState)
      unfold hostManualStep manualStepOf
      cases hf : s.fault with
      | some e => rfl
      | none =>
        cases s.halted with
        | true => exact cycle_eq hf
        | false => rfl
    | _ => rfl

theorem move_next {x : Move} :
    move x s = .next t ↔ moveOf Config.baby32 x s.toEngineState = .next t.toEngineState := by
  rw [move_eq_ofEngine, ofEngine_eq_next]

/-- All that a step of `Baby32` can answer. -/
theorem step_next : step s = .next t ↔
    (s.cancel = true ∨ s.fault = none ∧ s.halted = true) ∧ t = s ∨
    s.Running ∧ t.toEngineState = cycleOf Config.baby32 s.toEngineState := by
  have heq : t.toEngineState = s.toEngineState ↔ t = s := by
    cases s; cases t; simp
  rw [step_eq_ofEngine, ofEngine_eq_next, loopOf_next, heq]

end Baby32

section Invariant

variable {W : Nat} {M : MachineModel W} {s t : EngineState W}

namespace EngineState.Inv

/-! ### The engine's invariant under each state operation -/

theorem setCI (h : Inv M s) (v : BitVec W) : Inv M (s.setCI v) :=
  ⟨h.store_canonical, h.speed_positive, h.last_none_iff, h.last_in_range⟩

theorem setA (h : Inv M s) (v : BitVec W) : Inv M (s.setA v) :=
  ⟨h.store_canonical, h.speed_positive, h.last_none_iff, h.last_in_range⟩

theorem setHalted (h : Inv M s) (b : Bool) : Inv M (s.setHalted b) :=
  ⟨h.store_canonical, h.speed_positive, h.last_none_iff, h.last_in_range⟩

theorem setCancel (h : Inv M s) (b : Bool) : Inv M (s.setCancel b) :=
  ⟨h.store_canonical, h.speed_positive, h.last_none_iff, h.last_in_range⟩

theorem setFault (h : Inv M s) (f : Option EngineError) : Inv M (s.setFault f) :=
  ⟨h.store_canonical, h.speed_positive, h.last_none_iff, h.last_in_range⟩

theorem setSpeed (h : Inv M s) {q : Rat} (hq : 0 < q) : Inv M (s.setSpeed q) :=
  ⟨h.store_canonical, hq, h.last_none_iff, h.last_in_range⟩

theorem setStore (h : Inv M s) {m : Memory W} (hm : Memory.wf M.wordCount m = true) :
    Inv M (s.setStore m) :=
  ⟨hm, h.speed_positive, h.last_none_iff, h.last_in_range⟩

theorem record (h : Inv M s) {d : Descriptor} (haddress : d.address < M.wordCount)
    (hoperand : d.operand < 2 ^ M.addrLen) (hnum : d.mnemonic ≠ .num) : Inv M (s.record d) where
  store_canonical := h.store_canonical
  speed_positive := h.speed_positive
  last_none_iff := by simp
  last_in_range := by
    intro d' hd'
    cases hd'
    exact ⟨haddress, hoperand, hnum⟩

theorem executes (h : Inv M s) {m : Mnemonic} {S : Nat} (ht : Executes M m S s t) : Inv M t where
  store_canonical := ht.store_wf h.store_canonical
  speed_positive := by rw [ht.speed_eq]; exact h.speed_positive
  last_none_iff := by rw [ht.last_eq, ht.cycles_eq]; exact h.last_none_iff
  last_in_range := by rw [ht.last_eq]; exact h.last_in_range

/-- A cycle keeps it: a faulting one has written CI and the mark alone, a completed one records an address
below `N` and the pair its word decoded to. -/
theorem cycleOf (hM : M.Valid) (h : Inv M s) : Inv M (cycleOf M s) := by
  have hadvance : Inv M (advanceCI M s) := h.setCI _
  rcases cycleOf_cases M s with ⟨e, hc⟩ | ⟨m, S, t, hf, ht, hc⟩
  · rw [hc]
    exact hadvance.setFault _
  · obtain ⟨-, hm, hS⟩ := decodePair_ok hM ((fetchPair_advanceCI hM s).symm.trans hf)
    rw [hc]
    exact (hadvance.executes ht).record (advanceCI_ci_lt hM s) hS hm

theorem initial (M : MachineModel W) : Inv M (EngineState.initial W) where
  store_canonical := wf_nil
  speed_positive := by
    show 0 < Config.speed0
    decide
  last_none_iff := iff_of_true rfl rfl
  last_in_range := by
    intro d hd
    cases hd

end EngineState.Inv

/-! ### What a move can do (10_state.md R31) -/

/-- `Moves M s t`: one move of the system can lead from `s` to `t`. A stored image is canonical. -/
inductive Moves {W : Nat} (M : MachineModel W) (s : EngineState W) : EngineState W → Prop
  | stay : Moves M s s
  | cycle (hfault : s.fault = none) : Moves M s (cycleOf M s)
  | setHalted (b : Bool) : Moves M s (s.setHalted b)
  | setCancel (b : Bool) : Moves M s (s.setCancel b)
  | setSpeed {q : Rat} (hq : 0 < q) : Moves M s (s.setSpeed q)
  | setStore {m : Memory W} (hm : Memory.wf M.wordCount m = true) : Moves M s (s.setStore m)
  | clearRegisters : Moves M s ((s.setCI (zeroWord W)).setA (zeroWord W))

theorem moves_of_loopOf (h : loopOf M s = .next t) : Moves M s t := by
  rcases loopOf_next.1 h with ⟨-, rfl⟩ | ⟨hrun, rfl⟩
  · exact .stay
  · exact .cycle hrun.no_fault

theorem moves_of_hostEventOf {e : HostEvent} (h : hostEventOf M e s = .next t) : Moves M s t := by
  cases e with
  | setHalted b => cases h; exact .setHalted b
  | setCancel b => cases h; exact .setCancel b
  | setSpeed q => obtain ⟨hq, rfl⟩ := setSpeedOf_next.1 h; exact .setSpeed hq
  | manualStep => obtain ⟨hfault, -, rfl⟩ := manualStepOf_next.1 h; exact .cycle hfault
  | load source =>
    rcases loadOf_next.1 h with ⟨-, -, ⟨image, himage, rfl⟩ | ⟨-, rfl⟩⟩
    · exact .setStore (loadImage_wf himage)
    · exact .stay
  | clearMemory => obtain ⟨-, -, rfl⟩ := clearMemoryOf_next.1 h; exact .setStore wf_nil
  | clearState => obtain ⟨-, -, rfl⟩ := clearStateOf_next.1 h; exact .clearRegisters

theorem moves_of_moveOf {x : Move} (h : moveOf M x s = .next t) : Moves M s t := by
  cases x with
  | loop => exact moves_of_loopOf h
  | host e => exact moves_of_hostEventOf h

theorem EngineState.Inv.moves (hM : M.Valid) (h : Inv M s) (hmove : Moves M s t) : Inv M t := by
  cases hmove with
  | stay => exact h
  | cycle => exact h.cycleOf hM
  | setHalted b => exact h.setHalted b
  | setCancel b => exact h.setCancel b
  | setSpeed hq => exact h.setSpeed hq
  | setStore hm => exact h.setStore hm
  | clearRegisters => exact (h.setCI _).setA _

/-- No move of `Baby32` touches the fault mark. -/
theorem Moves.fault_eq {s t : EngineState 32} (h : Moves Config.baby32 s t) : t.fault = s.fault := by
  cases h with
  | cycle => exact cycleOf_baby32_fault s
  | _ => rfl

/-- Every move of `Baby32` keeps its invariant. -/
theorem State.Inv.move {s t : State} {x : Move} (h : s.Inv) (hmove : move x s = .next t) : t.Inv := by
  have hmoves := moves_of_moveOf (move_next.1 hmove)
  exact ⟨h.engine.moves Config.baby32_valid hmoves, hmoves.fault_eq.trans h.no_fault⟩

end Invariant

section Noninterference

variable {W : Nat} {M : MachineModel W} (s : EngineState W)

/-! ### What the counter, the descriptor and the speed do not reach (10_state.md R24 to R26) -/

/-- The state with the observer's items at their reset values: what the machine itself can read. -/
def EngineState.machinePart {W : Nat} (s : EngineState W) : EngineState W :=
  { s with cycles := 0, last := none, speed := Config.speed0 }

theorem sameMachine_iff {s t : State} :
    SameMachine s t ↔ s.toEngineState.machinePart = t.toEngineState.machinePart := by
  constructor
  · rintro ⟨hci, ha, hstore, hhalted, hcancel, hfault⟩
    simp [EngineState.machinePart, hci, ha, hstore, hhalted, hcancel, hfault]
  · intro h
    simp only [EngineState.machinePart, EngineState.mk.injEq] at h
    obtain ⟨hci, ha, hstore, hhalted, -, -, -, hcancel, hfault⟩ := h
    exact ⟨hci, ha, hstore, hhalted, hcancel, hfault⟩

theorem EngineState.machinePart_advanceCI :
    (advanceCI M s).machinePart = advanceCI M s.machinePart := rfl

theorem fetchPair_machinePart : fetchPair M s.machinePart = fetchPair M s := rfl

/-- The execute step of the machine part is the machine part of the execute step. -/
theorem executeOf_machinePart (m : Mnemonic) (S : Nat) :
    executeOf M m S s.machinePart = (executeOf M m S s).map EngineState.machinePart := by
  cases m with
  | jmp => simp only [executeOf, doJmp_eq]; split <;> rfl
  | jrp => simp only [executeOf, doJrp_eq, exceptMap_guarded]; rfl
  | ldn => simp only [executeOf, doLdn_eq, exceptMap_guarded]; rfl
  | sto => simp only [executeOf, doSto_eq]; split <;> rfl
  | sub => simp only [executeOf, doSub_eq, exceptMap_guarded]; rfl
  | cmp =>
    simp only [executeOf, doCmp_eq]
    show Except.ok (if s.a.toInt < 0 then _ else _) = _
    split <;> rfl
  | stp => rfl
  | num => rfl

/-- A cycle's machine part depends on the machine part alone. -/
theorem cycleOf_machinePart : (cycleOf M s.machinePart).machinePart = (cycleOf M s).machinePart := by
  have hexec := executeOf_machinePart (M := M) (advanceCI M s)
  simp only [cycleOf, ← EngineState.machinePart_advanceCI, fetchPair_machinePart]
  cases fetchPair M (advanceCI M s) with
  | error e => rfl
  | ok p =>
    obtain ⟨m, S⟩ := p
    simp only [hexec]
    cases executeOf M m S (advanceCI M s) <;> rfl

end Noninterference

/-- Two states that agree but for the observer's items run alike for a step. -/
theorem SameMachine.step {s t s' : State} (h : SameMachine s t) (hs : step s = .next s') :
    ∃ t', step t = .next t' ∧ SameMachine s' t' := by
  rcases step_next.1 hs with ⟨hkeep, rfl⟩ | ⟨hrun, hs'⟩
  · rw [h.cancel, h.fault, h.halted] at hkeep
    exact ⟨t, step_next.2 (.inl ⟨hkeep, rfl⟩), h⟩
  · have hrun' : t.Running :=
      ⟨h.cancel ▸ hrun.not_cancelled, h.fault ▸ hrun.no_fault, h.halted ▸ hrun.not_halted⟩
    refine ⟨⟨cycleOf Config.baby32 t.toEngineState⟩, step_next.2 (.inr ⟨hrun', rfl⟩), ?_⟩
    rw [sameMachine_iff, hs', ← cycleOf_machinePart, sameMachine_iff.1 h, cycleOf_machinePart]

/-! ### What a step of the running machine writes -/

/-- A step that does not keep the state runs the next instruction on the state of step 1, and records it. -/
theorem step_next_cases {s t : State} (h : step s = .next t) :
    t = s ∨ ∃ i u d, nextInstr s = .ok i ∧
      Executes Config.baby32 i.mnemonic i.operand (advanceCI Config.baby32 s.toEngineState) u ∧
      t = ⟨u.record d⟩ := by
  rcases step_next.1 h with ⟨-, rfl⟩ | ⟨-, ht⟩
  · exact .inl rfl
  · obtain ⟨i, u, hf, hu, hc⟩ := cycleOf_baby32_completes s.toEngineState
    exact .inr ⟨i, u, _, nextInstr_of_fetchPair hf, hu, congrArg State.mk (ht.trans hc)⟩

/-- The next instruction is named by its mnemonic. -/
theorem nextInstr_of_mnemonic {s : State} {i j : Instr} {m : Mnemonic} (hi : nextInstr s = .ok i)
    (hm : i.mnemonic = m) (hj : Instr.ofPair? m i.operand = some j) : nextInstr s = .ok j := by
  have hij : i = j := Option.some.inj ((ofPair?_eq_some.2 ⟨hm, rfl⟩).symm.trans hj)
  rw [hi, hij]

/-! ### The statements -/

/-- Settles O42: a step's machine part depends on the machine part alone. -/
theorem observerItemsAreNeverRead : Obligations.ObserverItemsAreNeverRead :=
  fun _ _ _ hsame hs => hsame.step hs

/-- Settles O45: a step is the move `loop`. -/
theorem everyStepKeepsTheInvariant : Obligations.EveryStepKeepsTheInvariant :=
  fun _ _ hs hstep => hs.move (x := .loop) hstep

/-- Settles O46: by the kinds of change a move can make. -/
theorem everyHostMoveKeepsTheInvariant : Obligations.EveryHostMoveKeepsTheInvariant :=
  fun _ _ _ hs hmove => hs.move hmove

/-- Settles O47: by the two ways a cycle can end. -/
theorem everyModelKeepsTheEngineInvariant : Obligations.EveryModelKeepsTheEngineInvariant :=
  fun _ _ hM _ hs => hs.cycleOf hM

/-- Settles O48: by the kinds of change a move can make. -/
theorem everyModelMoveKeepsTheEngineInvariant : Obligations.EveryModelMoveKeepsTheEngineInvariant :=
  fun _ _ hM _ _ _ hs hmove => hs.moves hM (moves_of_moveOf hmove)

/-- Settles O39: by the frame of the one execute step a step can take. -/
theorem onlyTheNamedInstructionsWrite : Obligations.OnlyTheNamedInstructionsWrite := by
  intro s t h
  rcases step_next_cases h with rfl | ⟨i, u, d, hi, hu, rfl⟩
  · exact ⟨(absurd rfl ·), (absurd rfl ·), (absurd rfl ·), rfl, rfl, fun _ => (absurd rfl ·)⟩
  refine ⟨fun ha => ?_, fun hstore => ?_, fun hhalted => ?_, hu.speed_eq, hu.cancel_eq,
    fun hci _ => ?_⟩
  · rcases hu.a_eq with hkeep | hm | hm
    · exact absurd hkeep ha
    · exact ⟨_, .inl (nextInstr_of_mnemonic hi hm rfl)⟩
    · exact ⟨_, .inr (nextInstr_of_mnemonic hi hm rfl)⟩
  · rcases hu.store_eq with hkeep | ⟨hm, -, hwrite⟩
    · exact absurd hkeep hstore
    · refine ⟨_, nextInstr_of_mnemonic hi hm rfl, fun b hb => ?_⟩
      rw [EngineState.record_store, hwrite, cellRead_write_other _ _ hb, advanceCI_eq_setCI,
        EngineState.setCI_store]
  · rcases hu.halted_eq with hkeep | ⟨hm, hset⟩
    · exact absurd hkeep hhalted
    · exact ⟨hset, _, nextInstr_of_mnemonic hi hm rfl⟩
  · have hadvance := advanceCI_ci_lt Config.baby32_valid s.toEngineState
    have hskip := nextCI_toNat_baby32 (advanceCI Config.baby32 s.toEngineState).ci
    rw [Config.baby32_wordCount] at hadvance
    rw [EngineState.record_ci] at hci
    rcases hu.ci_eq with hkeep | hskipped | hm | hm
    · rw [hkeep] at hci; omega
    · rw [hskipped] at hci; omega
    · exact ⟨_, .inl (nextInstr_of_mnemonic hi hm rfl)⟩
    · exact ⟨_, .inr (nextInstr_of_mnemonic hi hm rfl)⟩

/-- Settles O43: each field of the reset state (R32). -/
theorem resetIsHaltedAndZero : Obligations.ResetIsHaltedAndZero :=
  ⟨rfl, fun _ => rfl, rfl, rfl, rfl, rfl, rfl, rfl, by decide, rfl⟩

/-- Settles O44: the engine's invariant at reset, with no fault mark. -/
theorem resetMeetsTheInvariant : Obligations.ResetMeetsTheInvariant :=
  ⟨EngineState.Inv.initial Config.baby32, rfl⟩

end Sys2Proof.Machine

/-!
SUPPORT and proofs of the statements of spec/20_memory.md: the store's read, write and clear (R41 to R43), and
that a stored word is seen by the very next fetch (R52).
-/

namespace Sys2Proof.Machine

section Store

variable {W : Nat} {M : MachineModel W} {s : EngineState W} {a b : Nat}

/-! ### Reading a store that was written or cleared -/

theorem memWrite_of_length_ne {n : Nat} (ha : a < M.wordCount) (hn : n ≠ W) (v : BitVec n) :
    memWrite M s a v = .error .lengthError := by
  rw [memWrite, if_pos ha, dif_neg hn]

theorem memRead_write_same (ha : a < M.wordCount) (v : BitVec W) :
    memRead M (s.setStore (cellWrite s.store a v)) a = .ok v := by
  rw [memRead_of_lt ha, EngineState.setStore_store, cellRead_write_same]

theorem memRead_write_other (hb : b ≠ a) (v : BitVec W) :
    memRead M (s.setStore (cellWrite s.store a v)) b = memRead M s b := by
  simp only [memRead, EngineState.setStore_store, cellRead_write_other _ _ hb]

theorem cellRead_nil (a : Nat) : cellRead ([] : Memory W) a = zeroWord W := rfl

end Store

section FetchAfterStore

variable {s t : State} {i : Instr} {S : Nat}

/-! ### The step of a running machine whose next instruction is known -/

/-- Step 1 leaves CI at the address the cycle fetches from (40_instruction_cycle.md R91). -/
theorem advanceCI_ci_toNat {W : Nat} {M : MachineModel W} (hM : M.Valid) (s : EngineState W) :
    (advanceCI M s).ci.toNat = nextFetch M s :=
  nextCI_toNat hM.store_addressable hM.word_count s.ci

/-- A running machine executes its next instruction after step 1 and records it with its fetch address. -/
theorem step_of_nextInstr (hrun : s.Running) (hi : nextInstr s = .ok i) :
    ∃ u, Executes Config.baby32 i.mnemonic i.operand (advanceCI Config.baby32 s.toEngineState) u ∧
      step s = .next ⟨u.record (descriptorOf (nextFetch Config.baby32 s.toEngineState) i)⟩ := by
  obtain ⟨j, u, hf, hu, hc⟩ := cycleOf_baby32_completes s.toEngineState
  obtain rfl : i = j := Except.ok.inj (hi.symm.trans (nextInstr_of_fetchPair hf))
  rw [advanceCI_ci_toNat Config.baby32_valid] at hc
  exact ⟨u, hu, step_next.2 (.inr ⟨hrun, hc.symm⟩)⟩

/-- The step of an STO: A is written at the operand, and the cycle is recorded (42_load_store.md R121). -/
theorem step_sto (hrun : s.Running) (hi : nextInstr s = .ok (.sto S)) :
    ∃ t, step s = .next t ∧ t.store = cellWrite s.store S s.a ∧
      t.last = some ⟨nextFetch Config.baby32 s.toEngineState, .sto, S⟩ := by
  obtain ⟨u, hu, hstep⟩ := step_of_nextInstr hrun hi
  cases hu
  exact ⟨_, hstep, rfl, rfl⟩

/-! ### The fetch from a store one word of which was replaced (R52) -/

theorem nextInstr_of_store_write_same {m : Memory 32} {v : Word} (hstore : t.store = cellWrite m S v)
    (hfetch : nextFetch Config.baby32 t.toEngineState = S) : nextInstr t = decode v := by
  rw [nextInstr, hstore, hfetch, cellRead_write_same]

theorem nextInstr_of_store_write_other {m : Memory 32} {v : Word} (hstore : t.store = cellWrite m S v)
    (hfetch : nextFetch Config.baby32 t.toEngineState ≠ S) :
    nextInstr t = decode (cellRead m (nextFetch Config.baby32 t.toEngineState)) := by
  rw [nextInstr, hstore, cellRead_write_other _ _ hfetch]

end FetchAfterStore

/-! ### The statements -/

/-- Settles O38: the fetch of the next cycle reads the store the STO left. -/
theorem storedWordsAreFetchedAtOnce : Obligations.StoredWordsAreFetchedAtOnce := by
  intro S s hrun hi
  obtain ⟨t, hstep, hstore, hlast⟩ := step_sto hrun hi
  exact ⟨t, hstep, hlast, nextInstr_of_store_write_same hstore, nextInstr_of_store_write_other hstore⟩

/-- Settles O6: the write's three outcomes, and the read of the store it leaves. -/
theorem storeWriteThenReadGivesTheWord : Obligations.StoreWriteThenReadGivesTheWord := by
  intro W M s a
  refine ⟨fun ha v => ?written, fun ha n v hn => memWrite_of_length_ne ha hn v,
    fun ha => ⟨memRead_of_ge ha, fun n v => memWrite_of_ge ha v⟩⟩
  case written =>
    exact ⟨_, memWrite_of_lt ha v, memRead_write_same ha v, fun b hb => memRead_write_other hb v, rfl⟩

/-- Settles O7: the empty list lists no word, so each one in range reads zero. -/
theorem clearZeroesEverySlot : Obligations.ClearZeroesEverySlot := by
  intro W M s a
  rw [memRead, memClear_eq_setStore, EngineState.setStore_store, cellRead_nil]

end Sys2Proof.Machine

/-!
SUPPORT and proofs of the statements of spec/30_encoding.md: the decoder and the encoder (R61 to R68, R82), the
load pass (R75, R76), the commit of a load (R79, R80) and the refusal of requests (R77).
-/

namespace Sys2Proof.Machine

section Fields

variable {n m k : Nat}

/-! ### The fields of a word -/

/-- A field read unsigned is a quotient and a residue of the word (R65). -/
theorem extractLsb'_toNat_eq_div_mod (w : BitVec n) (start len : Nat) :
    (w.extractLsb' start len).toNat = w.toNat / 2 ^ start % 2 ^ len := by
  rw [BitVec.extractLsb'_toNat, Nat.shiftRight_eq_div_pow]

theorem fromUnsigned_toNat_self (w : BitVec n) : fromUnsigned w.toNat n = w := by
  rw [fromUnsigned_of_lt w.isLt, BitVec.ofNat_toNat, BitVec.setWidth_eq]

/-- A splice leaves every field outside its range as it was. -/
theorem extractLsb'_splice_of_disjoint {i j : Nat} (w : BitVec n) (other : BitVec m) (hi : i + m ≤ n)
    (hdisjoint : i + m ≤ j ∨ j + k ≤ i) :
    (splice w i other).extractLsb' j k = w.extractLsb' j k := by
  refine BitVec.eq_of_getLsbD_eq fun b hb => ?_
  rw [BitVec.getLsbD_extractLsb', BitVec.getLsbD_extractLsb', splice_getLsbD w i other hi,
    if_neg (by omega)]

/-- Masking acts on a spliced field and on the rest of the word apart. -/
theorem and_splice {i : Nat} (w mask : BitVec n) (field : BitVec m) (hi : i + m ≤ n) :
    w &&& splice mask i field = splice (w &&& mask) i (w.extractLsb' i m &&& field) := by
  refine BitVec.eq_of_getLsbD_eq fun b _ => ?_
  rw [BitVec.getLsbD_and, splice_getLsbD _ _ _ hi, splice_getLsbD _ _ _ hi]
  by_cases hb : i ≤ b ∧ b < i + m
  · have hlt : b - i < m := by omega
    have hadd : i + (b - i) = b := by omega
    simp [hb, hlt, hadd]
  · simp [hb]

end Fields

section Decoder

variable {W n : Nat} {M : MachineModel W} {m : Mnemonic} {S : Nat}

/-! ### The decoder, by the length of the word and the table (R65) -/

theorem decodePair_of_lt_op {w : BitVec n} (h : n < M.opStart + M.opLen) :
    decodePair M w = .error (.rangeError M.opStart M.opLen) := by
  rw [decodePair, slice_of_outside h]

theorem decodePair_of_unmapped {w : BitVec n} (hM : M.Valid) (hop : M.opStart + M.opLen ≤ n)
    (h : M.optable.lookup (w.extractLsb' M.opStart M.opLen) = none) :
    decodePair M w = .error (.decodeError (bitList (w.extractLsb' M.opStart M.opLen))) := by
  simp only [decodePair, slice_of_inside hM.op_len hop, h]

theorem decodePair_of_lt_addr {w : BitVec n} (hM : M.Valid) (hop : M.opStart + M.opLen ≤ n)
    (h : M.optable.lookup (w.extractLsb' M.opStart M.opLen) = some m)
    (haddr : n < M.addrStart + M.addrLen) :
    decodePair M w = .error (.rangeError M.addrStart M.addrLen) := by
  simp only [decodePair, slice_of_inside hM.op_len hop, h, slice_of_outside haddr]

theorem decodePair_of_mapped {w : BitVec n} (hM : M.Valid) (hop : M.opStart + M.opLen ≤ n)
    (h : M.optable.lookup (w.extractLsb' M.opStart M.opLen) = some m)
    (haddr : M.addrStart + M.addrLen ≤ n) :
    decodePair M w = .ok (m, (w.extractLsb' M.addrStart M.addrLen).toNat) := by
  simp only [decodePair, slice_of_inside hM.op_len hop, h, slice_of_inside hM.addr_len haddr]

/-- A store word decodes to the table's entry for its opcode field, with its address field. -/
theorem decodePair_eq_ok (hM : M.Valid) {w : BitVec W} :
    decodePair M w = .ok (m, S) ↔
      M.optable.lookup (w.extractLsb' M.opStart M.opLen) = some m ∧
        (w.extractLsb' M.addrStart M.addrLen).toNat = S := by
  cases h : M.optable.lookup (w.extractLsb' M.opStart M.opLen) with
  | none => simp [decodePair_of_unmapped hM hM.op_inside h]
  | some m' => simp [decodePair_of_mapped hM hM.op_inside h hM.addr_inside]

/-- A store word is long enough for both fields, so decoding it raises no `RangeError`. -/
theorem decodePair_ne_rangeError (hM : M.Valid) (w : BitVec W) (start : Int) (len : Nat) :
    decodePair M w ≠ .error (.rangeError start len) := by
  cases h : M.optable.lookup (w.extractLsb' M.opStart M.opLen) with
  | none => simp [decodePair_of_unmapped hM hM.op_inside h]
  | some m' => simp [decodePair_of_mapped hM hM.op_inside h hM.addr_inside]

/-! ### The encoder -/

/-- The word with an opcode field, an address field and every other bit clear (R66). -/
def fieldsWord (M : MachineModel W) (p : BitVec M.opLen) (f : BitVec M.addrLen) : BitVec W :=
  splice (splice (zeroWord W) M.addrStart f) M.opStart p

theorem fieldsWord_opField (hM : M.Valid) (p : BitVec M.opLen) (f : BitVec M.addrLen) :
    (fieldsWord M p f).extractLsb' M.opStart M.opLen = p :=
  extractLsb'_splice _ _ hM.op_inside

theorem fieldsWord_addrField (hM : M.Valid) (p : BitVec M.opLen) (f : BitVec M.addrLen) :
    (fieldsWord M p f).extractLsb' M.addrStart M.addrLen = f := by
  rw [fieldsWord, extractLsb'_splice_of_disjoint _ _ hM.op_inside hM.fields_disjoint.symm,
    extractLsb'_splice _ _ hM.addr_inside]

/-- What the encoder answers for a mnemonic of the table and an operand that fits (R66). -/
theorem encodePair_of_patternOf (hM : M.Valid) {p : BitVec M.opLen} (hp : patternOf M m = some p)
    (hS : placedOperand M m S < 2 ^ M.addrLen) :
    encodePair M m S = .ok (fieldsWord M p (fromUnsigned (placedOperand M m S) M.addrLen)) := by
  have haddr : M.addrStart < W := by have := hM.addr_len; have := hM.addr_inside; omega
  have hop : M.opStart < W := by have := hM.op_len; have := hM.op_inside; omega
  simp only [encodePair, hp, if_neg (Nat.not_le.2 hS), engrave_of_inside haddr hM.addr_inside,
    engrave_of_inside hop hM.op_inside, fieldsWord]

theorem placedOperand_le (M : MachineModel W) (m : Mnemonic) (S : Nat) : placedOperand M m S ≤ S := by
  rw [placedOperand]
  split
  · exact le_rfl
  · exact Nat.zero_le S

/-- `pattern(m)` finds a key of every value of the table (R68). -/
theorem exists_keyOf {k : Nat} {table : List (BitVec k × Mnemonic)} (hm : m ∈ table.map Prod.snd) :
    ∃ p, keyOf m table = some p ∧ (p, m) ∈ table := by
  induction table with
  | nil => cases hm
  | cons entry rest ih =>
    obtain ⟨p, m'⟩ := entry
    rw [keyOf]
    by_cases hhead : m' = m
    · exact ⟨p, if_pos hhead, hhead ▸ List.mem_cons_self⟩
    · obtain ⟨q, hq, hmem⟩ := ih ((List.mem_cons.1 hm).resolve_left (Ne.symm hhead))
      exact ⟨q, (if_neg hhead).trans hq, List.mem_cons_of_mem _ hmem⟩

/-- In a table whose keys are distinct, looking up the key of an entry gives its value. -/
theorem lookup_of_mem {α β : Type} [BEq α] [LawfulBEq α] {table : List (α × β)} {p : α} {b : β}
    (hkeys : (table.map Prod.fst).Nodup) (hmem : (p, b) ∈ table) : table.lookup p = some b := by
  induction table with
  | nil => cases hmem
  | cons entry rest ih =>
    obtain ⟨q, c⟩ := entry
    obtain ⟨hnot, hrest⟩ := List.nodup_cons.1 hkeys
    rcases List.mem_cons.1 hmem with heq | htail
    · cases heq
      exact List.lookup_cons_self
    · have hne : p ≠ q := fun h => hnot (List.mem_map.2 ⟨(p, b), htail, h⟩)
      rw [List.lookup_cons, beq_false_of_ne hne]
      exact ih hrest htail

/-- The pattern the encoder places decodes to the mnemonic it stands for. -/
theorem exists_patternOf (hM : M.Valid) (hm : m ∈ M.optable.map Prod.snd) :
    ∃ p, patternOf M m = some p ∧ M.optable.lookup p = some m := by
  obtain ⟨p, hp, hmem⟩ := exists_keyOf hm
  exact ⟨p, hp, lookup_of_mem hM.keys_once hmem⟩

end Decoder

section Baby32Encoding

variable {w : Word} {i : Instr}

/-! ### `Baby32` -/

/-- A word of `Baby32` decodes to an instruction exactly by its two fields. -/
theorem decode_eq_ok :
    decode w = .ok i ↔
      Config.baby32.optable.lookup (w.extractLsb' 13 3) = some i.mnemonic ∧
        (w.extractLsb' 0 5).toNat = i.operand := by
  refine Iff.trans ⟨fun h => ?_, decode_of_decodePair⟩ (decodePair_eq_ok Config.baby32_valid)
  rw [decode, decodeIn] at h
  split at h
  · cases h
  · next m S hpair =>
    split at h
    · next j hj =>
      cases h
      obtain ⟨rfl, rfl⟩ := ofPair?_eq_some.1 hj
      exact hpair
    · cases h

/-- Every word of `Baby32` decodes: the table is full, and NUM is not in it. -/
theorem exists_decode (w : Word) : ∃ i, decode w = .ok i := by
  obtain ⟨m, S, hpair⟩ := exists_decodePair Config.baby32_valid baby32_table_full w
  obtain ⟨-, hnum, -⟩ := decodePair_ok Config.baby32_valid hpair
  obtain ⟨i, hi⟩ : ∃ i, Instr.ofPair? m S = some i := by
    cases m with
    | num => exact absurd rfl hnum
    | _ => exact ⟨_, rfl⟩
  obtain ⟨rfl, rfl⟩ := ofPair?_eq_some.1 hi
  exact ⟨i, decode_of_decodePair hpair⟩

theorem mnemonic_mem_baby32_table (i : Instr) :
    i.mnemonic ∈ Config.baby32.optable.map Prod.snd := by
  cases i <;> simp [Config.baby32, Instr.mnemonic]

theorem canonical_mnemonic (i : Instr) : i.canonical.mnemonic = i.mnemonic := by
  cases i <;> rfl

/-- The field the encoder places is that of the canonical instruction (R66, R82). -/
theorem canonical_operand (i : Instr) :
    i.canonical.operand = placedOperand Config.baby32 i.mnemonic i.operand := by
  cases i <;> rfl

/-- The encoder writes the first pattern of the mnemonic that a pattern decodes to: `001` for the second pattern
`101` of SUB, and the pattern itself for the others (R68). -/
theorem patternOf_of_lookup_baby32 {p : BitVec 3} {m : Mnemonic}
    (h : Config.baby32.optable.lookup p = some m) :
    patternOf Config.baby32 m = some (if p = 5#3 then 4#3 else p) := by
  have hall : ∀ p : BitVec 3, (Config.baby32.optable.lookup p).bind
      (keyOf (k := 3) · Config.baby32.optable) = some (if p = 5#3 then 4#3 else p) := by decide
  have hp := hall p
  rw [h] at hp
  exact hp

/-- The mnemonics without an operand are those of the patterns 6 and 7, CMP and STP. -/
theorem needsOperand_of_lookup_baby32 {p : BitVec 3} {m : Mnemonic}
    (h : Config.baby32.optable.lookup p = some m) :
    m ∈ Config.baby32.needsOperand ↔ ¬(p = 6#3 ∨ p = 7#3) := by
  have hall : ∀ p : BitVec 3, ∀ m ∈ Config.baby32.optable.lookup p,
      (m ∈ Config.baby32.needsOperand ↔ ¬(p = 6#3 ∨ p = 7#3)) := by decide
  exact hall p m h

/-- Encoding what a pair of fields decodes to. -/
theorem encodePair_of_lookup_baby32 {p : BitVec 3} {m : Mnemonic} (f : BitVec 5)
    (h : Config.baby32.optable.lookup p = some m) :
    encodePair Config.baby32 m f.toNat = .ok
      (if p = 5#3 then fieldsWord Config.baby32 4#3 f
       else if p = 6#3 ∨ p = 7#3 then fieldsWord Config.baby32 p 0#5
       else fieldsWord Config.baby32 p f) := by
  have hplaced : fromUnsigned (placedOperand Config.baby32 m f.toNat) 5 =
      if p = 6#3 ∨ p = 7#3 then 0#5 else f := by
    simp only [placedOperand, needsOperand_of_lookup_baby32 h]
    by_cases h67 : p = 6#3 ∨ p = 7#3
    · rw [if_neg (not_not.2 h67), if_pos h67]
      rfl
    · rw [if_pos h67, if_neg h67, fromUnsigned_toNat_self]
  rw [encodePair_of_patternOf Config.baby32_valid (patternOf_of_lookup_baby32 h)
    ((placedOperand_le _ _ _).trans_lt f.isLt)]
  refine congrArg Except.ok ((congrArg (fieldsWord _ _) hplaced).trans ?_)
  by_cases h5 : p = 5#3
  · subst h5; rfl
  · by_cases h67 : p = 6#3 ∨ p = 7#3
    · simp only [if_neg h5, if_pos h67]
    · simp only [if_neg h5, if_neg h67]

/-- Clearing the unused bits keeps the two fields (R62). -/
theorem and_usedBits (w : Word) :
    w &&& 0xE01F#32 = fieldsWord Config.baby32 (w.extractLsb' 13 3) (w.extractLsb' 0 5) := by
  have hmask : 0xE01F#32 = splice (splice (zeroWord 32) 0 (BitVec.allOnes 5)) 13 (BitVec.allOnes 3) := by
    decide
  rw [hmask, and_splice _ _ _ (by decide), and_splice _ _ _ (by decide), BitVec.and_allOnes,
    BitVec.and_allOnes, zeroWord, BitVec.and_zero]
  rfl

/-- Clearing all but the opcode field. -/
theorem and_opBits (w : Word) :
    w &&& 0xE000#32 = fieldsWord Config.baby32 (w.extractLsb' 13 3) 0#5 := by
  have hmask : 0xE000#32 = splice (zeroWord 32) 13 (BitVec.allOnes 3) := by decide
  have hzero : splice (zeroWord 32) 0 0#5 = zeroWord 32 := by decide
  rw [hmask, and_splice _ _ _ (by decide), BitVec.and_allOnes, zeroWord, BitVec.and_zero]
  exact congrArg (splice · 13 _) hzero.symm

/-- Replacing the opcode field by `001`, with the unused bits cleared. -/
theorem and_addrBits_or (w : Word) :
    w &&& 0x1F#32 ||| 0x8000#32 = fieldsWord Config.baby32 4#3 (w.extractLsb' 0 5) := by
  have hmask : 0x1F#32 = splice (zeroWord 32) 0 (BitVec.allOnes 5) := by decide
  have hor : ∀ f : BitVec 5,
      splice (zeroWord 32) 0 f ||| 0x8000#32 = splice (splice (zeroWord 32) 0 f) 13 4#3 := by decide
  rw [hmask, and_splice _ _ _ (by decide), BitVec.and_allOnes, zeroWord, BitVec.and_zero]
  exact hor _

/-- The opcode bits in place tell the pattern. -/
theorem and_opBits_eq_iff (w : Word) (p : BitVec 3) :
    w &&& 0xE000#32 = fieldsWord Config.baby32 p 0#5 ↔ w.extractLsb' 13 3 = p := by
  rw [and_opBits]
  refine ⟨fun h => ?_, fun h => by rw [h]⟩
  rw [← fieldsWord_opField Config.baby32_valid (w.extractLsb' 13 3) 0#5, h]
  exact fieldsWord_opField Config.baby32_valid p 0#5

end Baby32Encoding

section LoadPass

variable {W N : Nat} {wordOf : Nat → List Char → Except LoadError (BitVec W)}
  {line : List Char} {rest lines : List (List Char)} {k a : Nat} {image : Memory W} {w : BitVec W}
  {e : LoadError}

/-! ### The load pass (R75, R76) -/

/-- What a pass makes of the line at count `k`: its word, if the store has that slot, or its error. -/
def lineResult (N : Nat) (wordOf : Nat → List Char → Except LoadError (BitVec W)) (k : Nat)
    (line : List Char) : Except LoadError (BitVec W) :=
  (wordOf k line).bind fun w => if k < N then .ok w else .error .tooManyLines

theorem lineResult_eq_ok : lineResult N wordOf k line = .ok w ↔ k < N ∧ wordOf k line = .ok w := by
  cases h : wordOf k line with
  | error e => simp [lineResult, h, Except.bind]
  | ok v => by_cases hk : k < N <;> simp [lineResult, h, Except.bind, hk]

theorem lineResult_eq_error :
    lineResult N wordOf k line = .error e ↔
      wordOf k line = .error e ∨ (N ≤ k ∧ e = .tooManyLines ∧ ∃ w, wordOf k line = .ok w) := by
  cases h : wordOf k line with
  | error e' => simp [lineResult, h, Except.bind]
  | ok v =>
    by_cases hk : k < N
    · simp [lineResult, h, Except.bind, hk]
    · simp [lineResult, h, Except.bind, hk, Nat.not_lt.1 hk, eq_comm]

/-- A line with an error is recorded, and the image of the pass is that of the other lines. -/
theorem loadPass_cons_error (h : lineResult N wordOf k line = .error e) :
    loadPass N wordOf (line :: rest) k image =
      ((loadPass N wordOf rest (k + 1) image).1, (k, e) :: (loadPass N wordOf rest (k + 1) image).2) := by
  rw [loadPass]
  rcases lineResult_eq_error.1 h with hword | ⟨hk, rfl, w, hword⟩
  · rw [hword]
  · rw [hword]
    exact if_neg (Nat.not_lt.2 hk)

/-- A good line is written to its slot. -/
theorem loadPass_cons_ok (h : lineResult N wordOf k line = .ok w) :
    loadPass N wordOf (line :: rest) k image = loadPass N wordOf rest (k + 1) (cellWrite image k w) := by
  obtain ⟨hk, hword⟩ := lineResult_eq_ok.1 h
  rw [loadPass, hword]
  exact if_pos hk

/-- The errors of a pass from count `k` are those of its lines, whatever the image. -/
theorem mem_loadPass_errors {j : Nat} :
    (j, e) ∈ (loadPass N wordOf lines k image).2 ↔
      ∃ i line, lines[i]? = some line ∧ j = k + i ∧ lineResult N wordOf j line = .error e := by
  induction lines generalizing k image with
  | nil => simp [loadPass]
  | cons head rest ih =>
    have hsplit : (∃ i line, (head :: rest)[i]? = some line ∧ j = k + i ∧
          lineResult N wordOf j line = .error e) ↔
        (j = k ∧ lineResult N wordOf k head = .error e) ∨
          ∃ i line, rest[i]? = some line ∧ j = k + 1 + i ∧ lineResult N wordOf j line = .error e := by
      constructor
      · rintro ⟨i, line, hline, rfl, herr⟩
        cases i with
        | zero =>
          cases hline
          exact .inl ⟨rfl, herr⟩
        | succ i => exact .inr ⟨i, line, hline, by omega, herr⟩
      · rintro (⟨rfl, herr⟩ | ⟨i, line, hline, rfl, herr⟩)
        · exact ⟨0, head, rfl, rfl, herr⟩
        · exact ⟨i + 1, line, hline, by omega, herr⟩
    rw [hsplit]
    cases h : lineResult N wordOf k head with
    | error e' => simp [loadPass_cons_error h, ih, eq_comm]
    | ok w => simp [loadPass_cons_ok h, ih]

theorem mem_loadPass_errors_zero :
    (k, e) ∈ (loadPass N wordOf lines 0 image).2 ↔
      ∃ line, lines[k]? = some line ∧ lineResult N wordOf k line = .error e := by
  rw [mem_loadPass_errors]
  constructor
  · rintro ⟨i, line, hline, hk, herr⟩
    obtain rfl : k = i := by omega
    exact ⟨line, hline, herr⟩
  · rintro ⟨line, hline, herr⟩
    exact ⟨k, line, hline, by omega, herr⟩

/-- A pass with only good lines records nothing. -/
theorem loadPass_errors_eq_nil
    (h : ∀ k line, lines[k]? = some line → k < N ∧ ∃ w, wordOf k line = .ok w) :
    (loadPass N wordOf lines 0 image).2 = [] := by
  refine List.eq_nil_iff_forall_not_mem.2 fun ⟨k, e⟩ hmem => ?_
  obtain ⟨line, hline, herr⟩ := mem_loadPass_errors_zero.1 hmem
  obtain ⟨hk, w, hw⟩ := h k line hline
  cases (lineResult_eq_ok.2 ⟨hk, hw⟩).symm.trans herr

/-- A pass writes no slot but those of its lines. -/
theorem cellRead_loadPass_outside (h : a < k ∨ k + lines.length ≤ a) :
    cellRead (loadPass N wordOf lines k image).1 a = cellRead image a := by
  induction lines generalizing k image with
  | nil => rfl
  | cons head rest ih =>
    rw [List.length_cons] at h
    cases hres : lineResult N wordOf k head with
    | error e =>
      rw [loadPass_cons_error hres]
      exact ih (by omega)
    | ok w =>
      rw [loadPass_cons_ok hres, ih (by omega), cellRead_write_other _ _ (by omega)]

/-- A pass with no error leaves each line's word at its slot. -/
theorem loadPass_word_of_no_errors (hnone : (loadPass N wordOf lines k image).2 = []) {i : Nat}
    (hline : lines[i]? = some line) :
    wordOf (k + i) line = .ok (cellRead (loadPass N wordOf lines k image).1 (k + i)) := by
  induction lines generalizing k image i with
  | nil => cases hline
  | cons head rest ih =>
    cases hres : lineResult N wordOf k head with
    | error e =>
      rw [loadPass_cons_error hres] at hnone
      cases hnone
    | ok w =>
      rw [loadPass_cons_ok hres] at hnone ⊢
      cases i with
      | zero =>
        cases hline
        rw [Nat.add_zero, cellRead_loadPass_outside (.inl (by omega)), cellRead_write_same]
        exact (lineResult_eq_ok.1 hres).2
      | succ i =>
        rw [show k + (i + 1) = k + 1 + i by omega]
        exact ih hnone hline

end LoadPass

section Load

variable {W : Nat} {M : MachineModel W} {source : List Char}
  {wordOf : Nat → List Char → Except LoadError (BitVec W)} {s : State}

/-! ### The load of a text (R77, R79, R80) -/

/-- The line reader that goes with the format of a text (R77). -/
def ReadsLines (M : MachineModel W) (source : List Char)
    (wordOf : Nat → List Char → Except LoadError (BitVec W)) : Prop :=
  (detectFormat (meaningfulLines source) = .assemblyText ∧ wordOf = assembleLine M) ∨
    (detectFormat (meaningfulLines source) = .binaryDump ∧ wordOf = dumpLine)

/-- A pass with no error gives its image. -/
theorem loadImage_of_no_errors (hformat : ReadsLines M source wordOf)
    (h : (loadPass M.wordCount wordOf (meaningfulLines source) 0 []).2 = []) :
    loadImage M source = .ok (loadPass M.wordCount wordOf (meaningfulLines source) 0 []).1 := by
  rcases hformat with ⟨hdetect, rfl⟩ | ⟨hdetect, rfl⟩
  all_goals
    simp only [loadImage, hdetect]
    generalize loadPass _ _ _ _ _ = result at h ⊢
    obtain ⟨image, errors⟩ := result
    cases h
    rfl

/-- A pass with an error gives all its errors. -/
theorem loadImage_of_errors (hformat : ReadsLines M source wordOf)
    (h : (loadPass M.wordCount wordOf (meaningfulLines source) 0 []).2 ≠ []) :
    loadImage M source = .error (loadPass M.wordCount wordOf (meaningfulLines source) 0 []).2 := by
  rcases hformat with ⟨hdetect, rfl⟩ | ⟨hdetect, rfl⟩
  -- `h` excludes the arm of the empty list, whose pattern the last arm overlaps.
  · simp only [loadImage, hdetect]
  · simp only [loadImage, hdetect]

theorem loadImage_of_unknown (h : detectFormat (meaningfulLines source) = .unknown) :
    loadImage M source = .error [(0, .unrecognizedFormat)] := by
  simp only [loadImage, h]

/-- On a halted machine with no fault a load that fails changes nothing. -/
theorem hostEvent_load_error {errors : List (Nat × LoadError)} (hfault : s.fault = none)
    (hhalted : s.halted = true) (h : loadImage Config.baby32 source = .error errors) :
    hostEvent (.load source) s = .next s :=
  ofEngine_eq_next.2 (loadOf_next.2 ⟨hfault, hhalted, .inr ⟨⟨errors, h⟩, rfl⟩⟩)

/-- On a halted machine with no fault a load that succeeds replaces the store alone. -/
theorem hostEvent_load_ok {image : Memory 32} (hfault : s.fault = none) (hhalted : s.halted = true)
    (h : loadImage Config.baby32 source = .ok image) :
    hostEvent (.load source) s = .next ⟨s.setStore image⟩ :=
  ofEngine_eq_next.2 (loadOf_next.2 ⟨hfault, hhalted, .inl ⟨image, h, rfl⟩⟩)

/-! ### Requests outside their state (D16, D17) -/

theorem whileHalted_of_running {s t : EngineState W} (hfault : s.fault = none)
    (hhalted : s.halted = false) : whileHalted s t = .refused .hostOperationWhileRunning := by
  simp [whileHalted, hfault, hhalted]

theorem whileHalted_of_fault {s t : EngineState W} (hfault : s.fault ≠ none) :
    whileHalted s t = .refused .usedAfterFault :=
  if_pos (Option.isSome_iff_ne_none.2 hfault)

/-- Loads and clears are requests admitted only while halted. -/
theorem hostEvent_eq_whileHalted {e : HostEvent} (s : State)
    (h : e = .clearMemory ∨ e = .clearState ∨ (∃ source, e = .load source)) :
    ∃ t, hostEvent e s = ofEngine (whileHalted s.toEngineState t) := by
  rcases h with rfl | rfl | ⟨source, rfl⟩
  · exact ⟨_, rfl⟩
  · exact ⟨_, rfl⟩
  · rw [hostEvent, loadOf]
    cases loadImage Config.baby32 source with
    | ok image => exact ⟨_, rfl⟩
    | error errors => exact ⟨_, rfl⟩

end Load

/-! ### The statements -/

/-- Settles O9: the fields of the encoded word are the pattern, which the table maps back, and the placed
operand. -/
theorem everyModelDecodesWhatItEncodes : Obligations.EveryModelDecodesWhatItEncodes := by
  intro W M hM m S hm hS
  obtain ⟨p, hp, hlookup⟩ := exists_patternOf hM hm
  have hplaced := (placedOperand_le M m S).trans_lt hS
  refine ⟨_, encodePair_of_patternOf hM hp hplaced, (decodePair_eq_ok hM).2 ⟨?opcode, ?address⟩⟩
  case opcode => rw [fieldsWord_opField hM, hlookup]
  case address => rw [fieldsWord_addrField hM, fromUnsigned_toNat hplaced]

/-- Settles O8: the round trip of every model, at `Baby32`. -/
theorem decodeEncodeRoundTrip : Obligations.DecodeEncodeRoundTrip := by
  intro i hi
  obtain ⟨w, hencode, hdecode⟩ := everyModelDecodesWhatItEncodes 32 Config.baby32 Config.baby32_valid
    i.mnemonic i.operand (mnemonic_mem_baby32_table i) hi
  rw [← canonical_operand, ← canonical_mnemonic] at hdecode
  exact ⟨w, hencode, decode_of_decodePair hdecode⟩

/-- Settles O10: each mask of the word is a word of its two fields, as the encoded word is. -/
theorem reencodingNormalisesTheWord : Obligations.ReencodingNormalisesTheWord := by
  intro w i hi
  obtain ⟨hlookup, hoperand⟩ := decode_eq_ok.1 hi
  have h5 : 0xA000#32 = fieldsWord Config.baby32 5#3 0#5 := by decide
  have h6 : 0xC000#32 = fieldsWord Config.baby32 6#3 0#5 := by decide
  have h7 : w &&& 0xE000#32 = 0xE000#32 ↔ w.extractLsb' 13 3 = 7#3 := and_opBits_eq_iff w 7#3
  rw [encode, ← hoperand, encodePair_of_lookup_baby32 _ hlookup]
  simp only [h5, h6, h7, and_opBits_eq_iff, and_addrBits_or, and_usedBits]
  rw [and_opBits]

/-- Settles O11: the full table by the opcode field, and the address field, as residues. -/
theorem everyWordDecodesByItsTwoFields : Obligations.EveryWordDecodesByItsTwoFields := by
  intro w
  obtain ⟨i, hi⟩ := exists_decode w
  obtain ⟨hlookup, hoperand⟩ := decode_eq_ok.1 hi
  refine ⟨i, hi, hoperand.symm.trans_lt (BitVec.isLt _), ?operand, ?mnemonic⟩
  case operand =>
    rw [← hoperand, extractLsb'_toNat_eq_div_mod]
    omega
  case mnemonic =>
    rw [← hlookup, baby32_lookup, extractLsb'_toNat_eq_div_mod]
    rfl

/-- Settles O12: the decoder's outcomes, in the order of its three reads. -/
theorem decodingFollowsTheFieldOrder : Obligations.DecodingFollowsTheFieldOrder := by
  intro W M hM n w
  refine ⟨decodePair_of_lt_op, fun hop => ⟨decodePair_of_unmapped hM hop, fun m hm =>
    ⟨decodePair_of_lt_addr hM hop hm, fun haddr => ?mapped⟩⟩, ?storeWord⟩
  case mapped =>
    rw [decodePair_of_mapped hM hop hm haddr, extractLsb'_toNat_eq_div_mod]
  case storeWord =>
    rintro rfl start len
    exact decodePair_ne_rangeError hM w start len

/-- Settles O13: a store word's decoding depends on the table's value and the address field alone. -/
theorem aliasedPatternsDecodeAlike : Obligations.AliasedPatternsDecodeAlike := by
  refine ⟨fun W M hM v w m hv hw haddr => ?_, by decide, by decide⟩
  have hv' := (decodePair_eq_ok hM).2 ⟨hv, rfl⟩
  have hw' := (decodePair_eq_ok hM).2 ⟨hw, congrArg BitVec.toNat haddr.symm⟩
  exact ⟨hv'.trans hw'.symm, _, hv'⟩

/-- Settles O50: the errors are those of the lines, and a pass with none wrote every line. -/
theorem loadPassIsCompleteAndExact : Obligations.LoadPassIsCompleteAndExact := by
  intro W N wordOf lines
  refine ⟨fun k line e hline herr => ?badLine, fun k line w hline hword hk => ?beyond,
    fun k e hmem => ?sound, loadPass_errors_eq_nil, fun hnone => ⟨fun k line hline => ?word,
    fun k hk => ?rest⟩⟩
  case badLine => exact mem_loadPass_errors_zero.2 ⟨line, hline, lineResult_eq_error.2 (.inl herr)⟩
  case beyond =>
    exact mem_loadPass_errors_zero.2
      ⟨line, hline, lineResult_eq_error.2 (.inr ⟨hk, rfl, w, hword⟩)⟩
  case sound =>
    obtain ⟨line, hline, herr⟩ := mem_loadPass_errors_zero.1 hmem
    exact ⟨line, hline, lineResult_eq_error.1 herr⟩
  case word =>
    have hword := loadPass_word_of_no_errors hnone hline
    rwa [Nat.zero_add] at hword
  case rest => exact cellRead_loadPass_outside (.inr (by omega))

/-- Settles O51: the load commits the image of a pass with no error, and nothing else. -/
theorem loadIsAllOrNothing : Obligations.LoadIsAllOrNothing := by
  intro source wordOf s hformat hfault hhalted
  obtain ⟨-, -, -, hclean, hexact⟩ := loadPassIsCompleteAndExact 32 32 wordOf (meaningfulLines source)
  refine ⟨fun k line hline hbad => ?bad, fun hgood => ?good⟩
  case bad =>
    obtain ⟨e, hmem⟩ : ∃ e, (k, e) ∈ (loadPass 32 wordOf (meaningfulLines source) 0 []).2 := by
      cases hres : lineResult 32 wordOf k line with
      | error e => exact ⟨e, mem_loadPass_errors_zero.2 ⟨line, hline, hres⟩⟩
      | ok w =>
        obtain ⟨hk, hword⟩ := lineResult_eq_ok.1 hres
        rcases hbad with ⟨e, herr⟩ | hbeyond
        · cases hword.symm.trans herr
        · omega
    have hload := loadImage_of_errors (M := Config.baby32) hformat (List.ne_nil_of_mem hmem)
    exact ⟨⟨_, e, hload, hmem⟩, hostEvent_load_error hfault hhalted hload⟩
  case good =>
    have hnone := hclean hgood
    have hload := loadImage_of_no_errors (M := Config.baby32) hformat hnone
    exact ⟨_, hload, hostEvent_load_ok hfault hhalted hload, hexact hnone⟩

/-- Settles O14: each word by evaluation of the decoder. -/
theorem writtenOutWordsDecode : Obligations.WrittenOutWordsDecode := by
  unfold Obligations.WrittenOutWordsDecode
  decide

/-- Settles O52: an unknown format is a load error, and the other requests are not admitted. -/
theorem requestsOutsideTheirStateAreRefused : Obligations.RequestsOutsideTheirStateAreRefused := by
  refine ⟨fun source s hformat hfault hhalted => ?unknown,
    fun e s he => ⟨fun hfault hhalted => ?running, fun hfault => ?faulted⟩,
    fun s hfault hhalted => ?manualStep⟩
  case unknown => exact hostEvent_load_error hfault hhalted (loadImage_of_unknown hformat)
  case running =>
    obtain ⟨t, ht⟩ := hostEvent_eq_whileHalted s he
    rw [ht, whileHalted_of_running hfault hhalted, ofEngine_refused]
  case faulted =>
    obtain ⟨t, ht⟩ := hostEvent_eq_whileHalted s he
    rw [ht, whileHalted_of_fault hfault, ofEngine_refused]
  case manualStep => simp [hostEvent, hostManualStep, hfault, hhalted]

end Sys2Proof.Machine

/-!
SUPPORT and proofs of the statements of spec/40_instruction_cycle.md: the cycle of every model (R90 to R95), the
step of `Baby32` and its faults (R97, R100, R102), the end of a run (R101), the manual step (R98) and the four
operations of every variant (R103).
-/

namespace Sys2Proof.Machine

section EveryCycle

variable {W : Nat} {M : MachineModel W} {m : Mnemonic} {S : Nat} {s t : EngineState W}

/-! ### The two ends of a cycle of every model (R95) -/

/-- A cycle that executed its instruction has the fault mark it began with. -/
theorem cycleOf_fault_of_executes (ht : Executes M m S (advanceCI M s) t) (d : Descriptor) :
    (t.record d).fault = s.fault := by
  rw [EngineState.record_fault, ht.fault_eq, advanceCI_eq_setCI, EngineState.setCI_fault]

/-- A cycle with no fault ran the pair its word decodes to, and recorded it. -/
theorem cycleOf_of_no_fault (hM : M.Valid) (hdone : (cycleOf M s).fault = none) :
    ∃ m S t, decodePair M (cellRead s.store (nextFetch M s)) = .ok (m, S) ∧
      Executes M m S (advanceCI M s) t ∧ cycleOf M s = t.record ⟨nextFetch M s, m, S⟩ := by
  rcases cycleOf_cases M s with ⟨e, hc⟩ | ⟨m, S, t, hf, ht, hc⟩
  · rw [hc, EngineState.setFault_fault] at hdone
    cases hdone
  · rw [advanceCI_ci_toNat hM] at hc
    exact ⟨m, S, t, (fetchPair_advanceCI hM s).symm.trans hf, ht, hc⟩

/-- A cycle that faults has left step 1 and the mark alone. -/
theorem cycleOf_of_fault (hfault : s.fault = none) (hraised : (cycleOf M s).fault ≠ none) :
    ∃ e, cycleOf M s = (advanceCI M s).setFault (some e) := by
  rcases cycleOf_cases M s with hc | ⟨m, S, t, -, ht, hc⟩
  · exact hc
  · rw [hc, cycleOf_fault_of_executes ht, hfault] at hraised
    exact absurd rfl hraised

end EveryCycle

section StepOfBaby32

variable {s : State} {i : Instr}

/-! ### The two answers of a step with no fault mark (R97, R100) -/

/-- A cancelled machine, and a halted one, keep the state. -/
theorem step_of_kept (h : s.cancel = true ∨ s.fault = none ∧ s.halted = true) : step s = .next s :=
  step_next.2 (.inl ⟨h, rfl⟩)

theorem step_of_running (hrun : s.Running) :
    step s = .next ⟨cycleOf Config.baby32 s.toEngineState⟩ :=
  step_next.2 (.inr ⟨hrun, rfl⟩)

theorem kept_or_running (hfault : s.fault = none) :
    (s.cancel = true ∨ s.fault = none ∧ s.halted = true) ∨ s.Running := by
  cases hcancel : s.cancel with
  | true => exact .inl (.inl rfl)
  | false =>
    cases hhalted : s.halted with
    | true => exact .inl (.inr ⟨hfault, rfl⟩)
    | false => exact .inr ⟨hcancel, hfault, hhalted⟩

/-! ### The cycle that runs `exec` (R90, R94) -/

theorem step_eq_cycle (hrun : s.Running) : step s = cycle s :=
  (step_of_running hrun).trans (cycle_eq hrun.no_fault).symm

/-- Steps 2 and 3 give the instruction at the next fetch address. -/
theorem fetchInstr_beginCycle_eq_nextInstr (s : State) : fetchInstr (beginCycle s) = nextInstr s := by
  rw [fetchInstr, beginCycle_eq, fetchWord_advanceCI Config.baby32_valid]
  rfl

theorem beginCycle_ci_toNat (s : State) :
    (beginCycle s).ci.toNat = nextFetch Config.baby32 s.toEngineState :=
  advanceCI_ci_toNat Config.baby32_valid s.toEngineState

theorem cycle_of_nextInstr (hi : nextInstr s = .ok i) :
    cycle s = finishCycle (descriptorOf (nextFetch Config.baby32 s.toEngineState) i)
      (exec i (beginCycle s)) := by
  simp only [cycle, fetchInstr_beginCycle_eq_nextInstr, hi, beginCycle_ci_toNat]

/-! ### What a cycle of `Baby32` does to the counter and the control items -/

theorem cycleOf_baby32_cycles (s : EngineState 32) :
    (cycleOf Config.baby32 s).cycles = s.cycles + 1 := by
  obtain ⟨i, t, -, ht, hc⟩ := cycleOf_baby32_completes s
  rw [hc, EngineState.record_cycles, ht.cycles_eq, advanceCI_eq_setCI, EngineState.setCI_cycles]

theorem cycleOf_baby32_cancel (s : EngineState 32) : (cycleOf Config.baby32 s).cancel = s.cancel := by
  obtain ⟨i, t, -, ht, hc⟩ := cycleOf_baby32_completes s
  rw [hc, EngineState.record_cancel, ht.cancel_eq, advanceCI_eq_setCI, EngineState.setCI_cancel]

/-- No cycle clears `halted`. -/
theorem cycleOf_baby32_halted {s : EngineState 32} (h : s.halted = true) :
    (cycleOf Config.baby32 s).halted = true := by
  obtain ⟨i, t, -, ht, hc⟩ := cycleOf_baby32_completes s
  rw [hc, EngineState.record_halted]
  rcases ht.halted_eq with hkeep | ⟨-, hset⟩
  · rw [hkeep, advanceCI_eq_setCI, EngineState.setCI_halted, h]
  · exact hset

end StepOfBaby32

section EndOfARun

variable {s t : State} {image : Memory 32} {k n : Nat}

/-! ### The step that ends a run (R101) -/

/-- Of the execute steps of a machine that is not halted, exactly STP's halts it. -/
theorem Executes.halted_iff {W : Nat} {M : MachineModel W} {m : Mnemonic} {S : Nat}
    {s t : EngineState W} (h : Executes M m S s t) (hs : s.halted = false) :
    t.halted = true ↔ m = .stp := by
  cases h <;> simp [hs]

theorem nextInstr_stp_iff {i : Instr} (hi : nextInstr s = .ok i) :
    (∃ S, nextInstr s = .ok (.stp S)) ↔ i.mnemonic = .stp := by
  constructor
  · rintro ⟨S, hS⟩
    rw [Except.ok.inj (hi.symm.trans hS)]
    rfl
  · exact fun hm => ⟨i.operand, nextInstr_of_mnemonic hi hm rfl⟩

/-- A step of the running machine ends the run exactly at an STP. -/
theorem endOfRun_iff (hrun : s.Running) (hstep : step s = .next t) :
    EndOfRun t ↔ ∃ S, nextInstr s = .ok (.stp S) := by
  obtain ⟨i, hi⟩ := exists_decode (cellRead s.store (nextFetch Config.baby32 s.toEngineState))
  obtain ⟨u, hu, hu_step⟩ := step_of_nextInstr hrun hi
  cases hstep.symm.trans hu_step
  have hfault : u.fault = none := hu.fault_eq.trans hrun.no_fault
  rw [nextInstr_stp_iff hi, ← hu.halted_iff hrun.not_halted]
  exact and_iff_left hfault

/-- An STP halts the machine after step 1, and is recorded with its fetch address (44_stop_and_data.md R140). -/
theorem step_stp {S : Nat} (hrun : s.Running) (hi : nextInstr s = .ok (.stp S)) :
    step s = .next ⟨((advanceCI Config.baby32 s.toEngineState).setHalted true).record
      ⟨nextFetch Config.baby32 s.toEngineState, .stp, S⟩⟩ := by
  obtain ⟨u, hu, hstep⟩ := step_of_nextInstr hrun hi
  cases hu
  exact hstep

/-! ### A run, taken apart at its last step -/

theorem run_succ_next {C : Host.Core} {s t : C.State} {k : Nat} :
    C.run (k + 1) s = .next t ↔ ∃ u, C.run k s = .next u ∧ C.step u = .next t := by
  induction k generalizing s with
  | zero =>
    simp only [Host.Core.run, Host.Outcome.next.injEq, exists_eq_left']
    cases C.step s <;> simp
  | succ k ih =>
    rw [Host.Core.run]
    cases hs : C.step s with
    | next v =>
      have hrun : C.run (k + 1) s = C.run k v := by rw [Host.Core.run, hs]
      simp only [ih, hrun]
    | fault r => simp [Host.Core.run, hs]
    | refused r => simp [Host.Core.run, hs]

/-- The machine of a run that is not yet over: not cancelled, no fault, one cycle counted a step. -/
structure InRun (k : Nat) (s : State) : Prop where
  not_cancelled : s.cancel = false
  no_fault : s.fault = none
  cycles_eq : s.cycles = k

theorem InRun.running (h : InRun k s) (hend : ¬EndOfRun s) : s.Running :=
  ⟨h.not_cancelled, h.no_fault, Bool.eq_false_iff.2 fun hhalted => hend ⟨hhalted, h.no_fault⟩⟩

theorem InRun.step_next (h : InRun k s) (hend : ¬EndOfRun s) (hstep : step s = .next t) :
    InRun (k + 1) t := by
  cases hstep.symm.trans (step_of_running (h.running hend))
  exact ⟨(cycleOf_baby32_cancel _).trans h.not_cancelled, (cycleOf_baby32_fault _).trans h.no_fault,
    (cycleOf_baby32_cycles _).trans (congrArg (· + 1) h.cycles_eq)⟩

/-- Every state a run reaches before its end, and the end itself, is one of the run. -/
theorem inRun_of_run (hreach : Host.Core.run Sys2Proof.core k (startOfRun image) = .next s)
    (hbefore : ∀ j < k, ∀ u : State, Host.Core.run Sys2Proof.core j (startOfRun image) = .next u →
      ¬EndOfRun u) : InRun k s := by
  induction k generalizing s with
  | zero =>
    cases hreach
    exact ⟨rfl, rfl, rfl⟩
  | succ k ih =>
    obtain ⟨u, hu, hstep⟩ := run_succ_next.1 hreach
    have hin : InRun k u := ih hu fun j hj => hbefore j (hj.trans k.lt_succ_self)
    exact hin.step_next (hbefore k k.lt_succ_self u hu) hstep

/-- A run ends with the step of a running machine, which has counted every cycle before. -/
theorem RunEnds.exists_last_step (h : RunEnds image n t) :
    ∃ k u, n = k + 1 ∧ InRun k u ∧ u.Running ∧ step u = .next t := by
  obtain ⟨hbefore, hreach, hhalted, hfault⟩ := h
  cases n with
  | zero =>
    cases hreach
    cases hhalted
  | succ k =>
    obtain ⟨u, hu, hstep⟩ := run_succ_next.1 hreach
    have hin : InRun k u := inRun_of_run hu fun j hj => hbefore j (hj.trans k.lt_succ_self)
    exact ⟨k, u, rfl, hin, hin.running (hbefore k k.lt_succ_self u hu), hstep⟩

end EndOfARun

section ManualStep

variable {W : Nat} {M : MachineModel W} {m : Mnemonic} {S : Nat} {s t : EngineState W}

/-! ### What the control items do not reach (R98, R102) -/

/-- An execute step does not read `halted` or `cancel`, and writes of them `halted` alone. -/
theorem Executes.setHalted_setCancel (h : Executes M m S s t) (b c : Bool) :
    ∃ b', Executes M m S ((s.setHalted b).setCancel c) ((t.setHalted b').setCancel c) := by
  cases h with
  | jmp hS => exact ⟨b, .jmp hS⟩
  | jrp hS hv => exact ⟨b, .jrp hS hv⟩
  | ldn hS hv => exact ⟨b, .ldn hS hv⟩
  | sto hS => exact ⟨b, .sto hS⟩
  | sub hS hv => exact ⟨b, .sub hS hv⟩
  | cmpSkip ha => exact ⟨b, .cmpSkip ha⟩
  | cmpStay ha => exact ⟨b, .cmpStay ha⟩
  | stp => exact ⟨true, .stp⟩

/-- So the cycle of `Baby32` is the same with them written, but for the two items themselves. -/
theorem cycleOf_baby32_setHalted_setCancel (s : EngineState 32) (b c : Bool) :
    ∃ b', cycleOf Config.baby32 ((s.setHalted b).setCancel c) =
      ((cycleOf Config.baby32 s).setHalted b').setCancel c := by
  obtain ⟨i, t, hf, ht, hc⟩ := cycleOf_baby32_completes s
  obtain ⟨b', ht'⟩ := ht.setHalted_setCancel b c
  rw [hc]
  exact ⟨b', cycleOf_of_executes (s := (s.setHalted b).setCancel c) hf ht'⟩

/-- Writing the two items and then writing them back leaves the state. -/
theorem EngineState.setHalted_setCancel_restore (hs : s.halted = true) (b c : Bool) :
    ((((s.setHalted b).setCancel c).setHalted true).setCancel s.cancel) = s := by
  rw [← hs]
  rfl

theorem hostEvent_manualStep {s : State} (hfault : s.fault = none) (hhalted : s.halted = true) :
    hostEvent .manualStep s = .next ⟨cycleOf Config.baby32 s.toEngineState⟩ :=
  (move_next (x := .host .manualStep)).2 (manualStepOf_next.2 ⟨hfault, hhalted, rfl⟩)

end ManualStep

/-! ### The statements -/

/-- Settles O26: a step keeps the state, or takes a cycle, which keeps the fault mark. -/
theorem baby32NeverFaults : Obligations.Baby32NeverFaults := by
  intro s hfault
  rcases kept_or_running hfault with hkept | hrun
  · exact ⟨s, step_of_kept hkept, hfault⟩
  · exact ⟨_, step_of_running hrun, (cycleOf_baby32_fault s.toEngineState).trans hfault⟩

/-- Settles O15: the value of the next CI, and its bits. -/
theorem stepOneIncrementsModuloTheStore : Obligations.StepOneIncrementsModuloTheStore := by
  intro W M hM s
  have hlt : (nextCI M s.ci).toNat < M.wordCount := advanceCI_ci_lt hM s
  exact ⟨nextCI M s.ci, advanceCI_eq_setCI s M, advanceCI_ci_toNat hM s, hlt,
    fun i hi => Nat.testBit_lt_two_pow (hlt.trans_le hi)⟩

/-- Settles O18: the step is the loop's answer, wrapped. -/
theorem stepIsTheGenericLoopAtBaby32 : Obligations.StepIsTheGenericLoopAtBaby32 := by
  intro s
  rw [step_eq_ofEngine]
  exact ⟨fun e h => by rw [h, ofEngine_next], fun r h => by rw [h, ofEngine_fault],
    fun r h => by rw [h, ofEngine_refused]⟩

/-- Settles O19: by the two ways a cycle can end. -/
theorem completedCyclesAreRecorded : Obligations.CompletedCyclesAreRecorded := by
  intro W M hM s hfault
  refine ⟨fun hdone => ?completed, fun hraised => ?faulted⟩
  case completed =>
    obtain ⟨m, S, t, hd, ht, hc⟩ := cycleOf_of_no_fault hM hdone
    rw [hc]
    exact ⟨congrArg (· + 1) ht.cycles_eq, m, S, hd, rfl⟩
  case faulted =>
    obtain ⟨e, hc⟩ := cycleOf_of_fault hfault hraised
    rw [hc]
    exact ⟨rfl, rfl⟩

/-- Settles O25: every cycle of such a model executes its instruction. -/
theorem fullModelsNeverFault : Obligations.FullModelsNeverFault := by
  intro W M hM htable haddr hpolicy s hfault
  obtain ⟨m, S, t, -, ht, hc⟩ := cycleOf_completes hM htable haddr hpolicy s
  rw [hc, cycleOf_fault_of_executes ht, hfault]

/-- Settles O40: STP alone writes `halted`. -/
theorem runsEndExactlyAtStp : Obligations.RunsEndExactlyAtStp :=
  fun _ _ hrun hstep => endOfRun_iff hrun hstep

/-- Settles O41: the last step of the run is an STP's, which writes neither CI nor the store after step 1. -/
theorem theEndOfARunIsAtAnStp : Obligations.TheEndOfARunIsAtAnStp := by
  intro image n t h
  obtain ⟨k, u, rfl, hin, hrun, hstep⟩ := h.exists_last_step
  obtain ⟨S, hS⟩ := (endOfRun_iff hrun hstep).1 h.ended
  cases hstep.symm.trans (step_stp hrun hS)
  have hci := advanceCI_ci_toNat Config.baby32_valid u.toEngineState
  refine ⟨by omega, congrArg (· + 1) hin.cycles_eq, hin.not_cancelled, S, ?last,
    advanceCI_ci_lt Config.baby32_valid u.toEngineState, ?word⟩
  case last => rw [EngineState.record_last, EngineState.record_ci, EngineState.setHalted_ci, hci]
  case word =>
    rw [EngineState.record_ci, EngineState.setHalted_ci, hci]
    exact hS

/-- Settles O54: the cycle reads neither `halted` nor `cancel`, which are written back. -/
theorem manualStepIsOneCycleAndStaysHalted : Obligations.ManualStepIsOneCycleAndStaysHalted := by
  intro s hfault hhalted
  have hstays := cycleOf_baby32_halted hhalted
  obtain ⟨b, hb⟩ := cycleOf_baby32_setHalted_setCancel s.toEngineState false false
  have hrun : ((s.setHalted false).setCancel false).Running := ⟨rfl, hfault, rfl⟩
  refine ⟨_, _, hostEvent_manualStep hfault hhalted, hstays, cycleOf_baby32_cycles s.toEngineState,
    step_of_running hrun, congrArg State.mk ?_⟩
  rw [hb, ← cycleOf_baby32_cancel s.toEngineState]
  exact (EngineState.setHalted_setCancel_restore hstays b false).symm

/-- Settles O58: move by move, the cycle that runs `exec` being the engine's. -/
theorem baby32MovesAreTheGenericOnes : Obligations.Baby32MovesAreTheGenericOnes := move_eq_ofEngine

/-- Settles O16: the run loop takes the cycle, whose fetch is the next instruction. -/
theorem stepRunsTheDecodedInstruction : Obligations.StepRunsTheDecodedInstruction := by
  intro s i hrun hi _
  have hstep := (step_eq_cycle hrun).trans (cycle_of_nextInstr hi)
  refine ⟨?begin, hstep, fun t ht => ⟨fun hnone => ?recorded, fun hraised => ?raised⟩⟩
  case begin =>
    rw [beginCycle_eq, advanceCI_eq_setCI, nextCI_baby32]
    rfl
  case recorded =>
    rw [hstep, ht, finishCycle_next, if_pos hnone]
    rfl
  case raised => rw [hstep, ht, finishCycle_next, if_neg hraised]

/-- Settles O17: the kept states of the run loop, and the frame of `cancel`. -/
theorem cancelAndHaltKeepTheState : Obligations.CancelAndHaltKeepTheState := fun _ =>
  ⟨fun hcancel => step_of_kept (.inl hcancel),
    fun hhalted hfault => step_of_kept (.inr ⟨hfault, hhalted⟩), fun _ => rfl, Iff.rfl⟩

/-- Settles O57: the answer of each operation's move, halted and running. -/
theorem everyVariantOffersTheFourOperations : Obligations.EveryVariantOffersTheFourOperations := by
  intro W M s hfault
  refine ⟨fun hhalted => ⟨?step, ?idle, ?memory, ?registers⟩,
    fun hrunning => ⟨fun hcancel => ?cycle, fun hcancel => ?cancelled, ?noStep, ?noMemory, ?noRegisters⟩⟩
  case step => exact manualStepOf_next.2 ⟨hfault, hhalted, rfl⟩
  case idle => exact loopOf_next.2 (.inl ⟨.inr ⟨hfault, hhalted⟩, rfl⟩)
  case memory =>
    exact ⟨_, clearMemoryOf_next.2 ⟨hfault, hhalted, rfl⟩, rfl, fun a ha => memRead_of_lt ha⟩
  case registers =>
    refine ⟨_, clearStateOf_next.2 ⟨hfault, hhalted, rfl⟩, rfl, ?_⟩
    simp [nextFetch, zeroWord]
  case cycle => exact loopOf_next.2 (.inr ⟨⟨hcancel, hfault, hrunning⟩, rfl⟩)
  case cancelled => exact loopOf_next.2 (.inl ⟨.inl hcancel, rfl⟩)
  case noStep =>
    show manualStepOf M s = _
    simp [manualStepOf, hfault, hrunning]
  case noMemory => exact whileHalted_of_running hfault hrunning
  case noRegisters => exact whileHalted_of_running hfault hrunning

end Sys2Proof.Machine

/-!
SUPPORT and proofs of the statements of spec/41_control_transfer.md: JMP, JRP and CMP (R110 to R113), with the
words of `Baby32` as numbers (30_encoding.md R66) and the operand beyond the store (60_exceptions.md R152).
-/

namespace Sys2Proof.Machine

section EncodedWords

variable {i : Instr} {p : BitVec 3}

/-! ### The words of `Baby32` as numbers: the pattern from bit 13 on, the operand from bit 0 on -/

/-- A word built of two fields decodes by its pattern and its address field (R65). -/
theorem decodePair_fieldsWord {W : Nat} {M : MachineModel W} (hM : M.Valid) {q : BitVec M.opLen}
    {m : Mnemonic} (hq : M.optable.lookup q = some m) (f : BitVec M.addrLen) :
    decodePair M (fieldsWord M q f) = .ok (m, f.toNat) := by
  refine (decodePair_eq_ok hM).2 ⟨?opcode, ?address⟩
  case opcode => rw [fieldsWord_opField hM, hq]
  case address => rw [fieldsWord_addrField hM]

theorem fieldsWord_baby32 (p : BitVec 3) (f : BitVec 5) :
    fieldsWord Config.baby32 p f = BitVec.ofNat 32 (0x2000 * p.toNat + f.toNat) := by
  have hall : ∀ (p : BitVec 3) (f : BitVec 5), splice (splice (zeroWord 32) 0 f) 13 p =
      BitVec.ofNat 32 (0x2000 * p.toNat + f.toNat) := by decide
  exact hall p f

/-- An instruction is decoded from any pattern that stands for it with its operand. -/
theorem decode_ofNat (hp : Config.baby32.optable.lookup p = some i.mnemonic) (hi : i.WellFormed) :
    decode (BitVec.ofNat 32 (0x2000 * p.toNat + i.operand)) = .ok i := by
  have hf : (BitVec.ofNat 5 i.operand).toNat = i.operand := Nat.mod_eq_of_lt hi
  have hpair : decodePair Config.baby32 (fieldsWord Config.baby32 p (BitVec.ofNat 5 i.operand)) =
      .ok (i.mnemonic, (BitVec.ofNat 5 i.operand).toNat) :=
    decodePair_fieldsWord Config.baby32_valid hp _
  rw [fieldsWord_baby32, hf] at hpair
  exact decode_of_decodePair hpair

/-- An instruction is encoded by its pattern, never the second one of SUB, and its operand or 0 (R66, R68). -/
theorem encode_eq_ofNat (hp : Config.baby32.optable.lookup p = some i.mnemonic) (hcanonical : p ≠ 5#3)
    (hi : i.WellFormed) :
    encode i = .ok (BitVec.ofNat 32 (0x2000 * p.toNat + i.canonical.operand)) := by
  have hpattern : patternOf Config.baby32 i.mnemonic = some p := by
    rw [patternOf_of_lookup_baby32 hp, if_neg hcanonical]
  have hplaced := (placedOperand_le Config.baby32 i.mnemonic i.operand).trans_lt hi
  rw [encode, encodePair_of_patternOf Config.baby32_valid hpattern hplaced, canonical_operand]
  exact congrArg Except.ok <| (fieldsWord_baby32 p _).trans <|
    congrArg (fun f => BitVec.ofNat 32 (0x2000 * p.toNat + f)) (fromUnsigned_toNat hplaced)

end EncodedWords

section SignedWords

variable {n : Nat}

/-! ### Addition and the sign -/

/-- The wrapped signed sum is the sum of the words (43_arithmetic.md R131). -/
theorem wrapInt_toInt_add_toInt (v w : BitVec n) : wrapInt (v.toInt + w.toInt) n = v + w := by
  rw [wrapInt, BitVec.ofInt_add, BitVec.ofInt_toInt, BitVec.ofInt_toInt]

theorem toInt_add_of_fits (hn : 1 ≤ n) {v w : BitVec n} (h : FitsSigned (v.toInt + w.toInt) n) :
    (v + w).toInt = v.toInt + w.toInt := by
  rw [← wrapInt_toInt_add_toInt, wrapInt_toInt_of_fits hn h]

theorem toInt_neg_iff_getLsbD (w : BitVec n) : w.toInt < 0 ↔ w.getLsbD (n - 1) = true := by
  rw [← BitVec.msb_eq_getLsbD_last, BitVec.msb_eq_toInt, decide_eq_true_iff]

end SignedWords

section OperandBeyondTheStore

variable {W : Nat} {M : MachineModel W} {m : Mnemonic} {S : Nat} {s : EngineState W}

/-! ### An operand beyond the store (60_exceptions.md R152) -/

/-- The five instructions that access the store raise `BoundsError` beyond it. -/
theorem executeOf_of_ge (hm : m ∈ [Mnemonic.jmp, .jrp, .ldn, .sto, .sub]) (hS : M.wordCount ≤ S) :
    executeOf M m S s = .error (.boundsError S) := by
  have hS := Nat.not_lt.2 hS
  cases m with
  | jmp => exact doJmp_eq.trans (if_neg hS)
  | jrp => exact doJrp_eq.trans (if_neg hS)
  | ldn => exact doLdn_eq.trans (if_neg hS)
  | sto => exact doSto_eq.trans (if_neg hS)
  | sub => exact doSub_eq.trans (if_neg hS)
  | cmp | stp | num => simp at hm

/-- The cycle of such an instruction leaves step 1 and the fault mark alone. -/
theorem cycleOf_of_ge (hm : m ∈ [Mnemonic.jmp, .jrp, .ldn, .sto, .sub]) (hS : M.wordCount ≤ S)
    (hf : fetchPair M (advanceCI M s) = .ok (m, S)) :
    cycleOf M s = (advanceCI M s).setFault (some (.boundsError S)) :=
  cycleOf_of_executeOf_error hf (executeOf_of_ge hm hS)

end OperandBeyondTheStore

section Transfers

variable {W : Nat} {M : MachineModel W} {m : Mnemonic} {S : Nat} {s t : EngineState W}

/-! ### The next fetch address, and the frame of a transfer -/

/-- Step 1 moves the next fetch one address on. -/
theorem nextFetch_advanceCI (hM : M.Valid) (s : EngineState W) :
    nextFetch M (advanceCI M s) = (nextFetch M s + 1) % M.wordCount :=
  congrArg (fun c => (c + 1) % M.wordCount) (advanceCI_ci_toNat hM s)

/-- JMP, JRP and CMP write CI alone (R113). -/
theorem Executes.eq_setCI (h : Executes M m S s t) (hm : m ∈ [Mnemonic.jmp, .jrp, .cmp]) :
    ∃ c, t = s.setCI c := by
  cases h with
  | jmp | jrp | cmpSkip => exact ⟨_, rfl⟩
  | cmpStay => exact ⟨s.ci, rfl⟩
  | ldn | sto | sub | stp => simp at hm

/-- A CMP continues two addresses on when A is negative, at the next address otherwise (R112): its skip is
step 1 taken once more. -/
theorem Executes.nextFetch_of_cmp (hM : M.Valid) (h : Executes M .cmp S (advanceCI M s) t) :
    nextFetch M t = (nextFetch M s + if s.a.toInt < 0 then 2 else 1) % M.wordCount := by
  cases h with
  | cmpSkip ha =>
    have ha : s.a.toInt < 0 := ha
    calc nextFetch M (advanceCI M (advanceCI M s))
        = ((nextFetch M s + 1) % M.wordCount + 1) % M.wordCount := by
          rw [nextFetch_advanceCI hM, nextFetch_advanceCI hM]
      _ = _ := by rw [if_pos ha, Nat.mod_add_mod]
  | cmpStay ha =>
    have ha : ¬s.a.toInt < 0 := ha
    rw [nextFetch_advanceCI hM, if_neg ha]

end Transfers

section ExecuteInBaby32

variable {S : Nat} {s : State} {i : Instr}

/-! ### The execute step of `Baby32` -/

theorem exec_of_executes {t : EngineState 32}
    (h : Executes Config.baby32 i.mnemonic i.operand s.toEngineState t) : exec i s = .next ⟨t⟩ := by
  rw [exec_eq_settle, executeOf_eq_ok.2 h, settle_ok]

theorem exec_jmp (hS : S < 32) : exec (.jmp S) s = .next ⟨s.setCI (cellRead s.store S)⟩ :=
  exec_of_executes (.jmp hS)

theorem exec_jrp (hS : S < 32) : exec (.jrp S) s = .next ⟨s.setCI (cellRead s.store S + s.ci)⟩ :=
  exec_of_executes (.jrp hS ((fromInt_wrap _ _).trans (congrArg _ (wrapInt_toInt_add_toInt _ _))))

theorem exec_cmp_of_neg (ha : s.a.toInt < 0) :
    exec (.cmp S) s = .next ⟨s.setCI (BitVec.ofNat 32 ((s.ci.toNat + 1) % 32))⟩ := by
  rw [← nextCI_baby32]
  exact exec_of_executes (.cmpSkip ha)

theorem exec_cmp_of_nonneg (ha : 0 ≤ s.a.toInt) : exec (.cmp S) s = .next s :=
  exec_of_executes (.cmpStay (not_lt.2 ha))

end ExecuteInBaby32

/-! ### The statements -/

/-- Settles O27: the execute step in and beyond the store, and JMP's pattern 0. -/
theorem jmpCopiesTheStoreWordToCI : Obligations.JmpCopiesTheStoreWordToCI := by
  refine ⟨fun S s hS => ⟨exec_jmp hS, rfl⟩, fun W M S s hS => ⟨?raised, fun hf => ?kept⟩,
    fun S hS => ⟨?encoded, ?decoded⟩⟩
  case raised => exact executeOf_of_ge (by decide) hS
  case kept => rw [cycleOf_of_ge (by decide) hS hf, EngineState.setFault_ci]
  case encoded =>
    simpa [Instr.canonical, Instr.operand] using
      encode_eq_ofNat (i := .jmp S) (p := 0#3) rfl (by decide) hS
  case decoded => simpa [Instr.operand] using decode_ofNat (i := .jmp S) (p := 0#3) rfl hS

/-- Settles O28: the wrapped sum is the sum of the words, and in range it is exact. -/
theorem jrpAddsTheStoreWordToCI : Obligations.JrpAddsTheStoreWordToCI :=
  fun _ _ hS => ⟨exec_jrp hS, toInt_add_of_fits (by decide)⟩

/-- Settles O32: the two outcomes of the sign test, the fetch after each, and CMP's pattern 6. -/
theorem cmpSkipsWhenAIsNegative : Obligations.CmpSkipsWhenAIsNegative := by
  refine ⟨fun S s => ⟨exec_cmp_of_neg, exec_cmp_of_nonneg, toInt_neg_iff_getLsbD s.a⟩,
    fun S s hrun hi => ?step,
    fun S hS => ⟨encode_eq_ofNat (i := .cmp S) (p := 6#3) rfl (by decide) hS,
      decode_ofNat (i := .cmp S) (p := 6#3) rfl hS⟩⟩
  case step =>
    obtain ⟨u, hu, hstep⟩ := step_of_nextInstr hrun hi
    have hfetch := Executes.nextFetch_of_cmp Config.baby32_valid hu
    exact ⟨_, hstep, congrArg (· + 1) hu.cycles_eq, hfetch⟩

/-- Settles O36: the step of a transfer differs from its start in CI and in what step 5 records. -/
theorem transfersLeaveAAndTheStore : Obligations.TransfersLeaveAAndTheStore := by
  intro S i s hmem hrun hi
  have hm : i.mnemonic ∈ [Mnemonic.jmp, .jrp, .cmp] := List.mem_map_of_mem (f := Instr.mnemonic) hmem
  obtain ⟨u, hu, hstep⟩ := step_of_nextInstr hrun hi
  obtain ⟨c, rfl⟩ := hu.eq_setCI hm
  exact ⟨_, hstep, hrun.no_fault, rfl, rfl, rfl, rfl, Nat.mod_lt _ (by decide)⟩

end Sys2Proof.Machine

/-!
SUPPORT and proofs of the statements of spec/42_load_store.md: LDN and STO (R120, R121), with the negation of a
word (43_arithmetic.md R131).
-/

namespace Sys2Proof.Machine

section Negation

variable {n : Nat}

/-! ### Negation -/

/-- The wrapped negation is the negation of the word (43_arithmetic.md R131). -/
theorem wrapInt_neg_toInt (w : BitVec n) : wrapInt (-w.toInt) n = -w := by
  rw [wrapInt, BitVec.ofInt_neg, BitVec.ofInt_toInt]

end Negation

section ExecuteInBaby32

variable {S : Nat} {s : State}

/-! ### The execute step of `Baby32` -/

theorem exec_ldn (hS : S < 32) : exec (.ldn S) s = .next ⟨s.setA (-(cellRead s.store S))⟩ :=
  exec_of_executes (.ldn hS ((fromInt_wrap _ _).trans (congrArg _ (wrapInt_neg_toInt _))))

theorem exec_sto (hS : S < 32) : exec (.sto S) s = .next ⟨s.setStore (cellWrite s.store S s.a)⟩ :=
  exec_of_executes (.sto hS)

end ExecuteInBaby32

/-! ### The statements -/

/-- Settles O29: the wrapped negation is the negation of the word, exact but at the one fixed word `MIN_W`. -/
theorem ldnNegatesTheStoreWordIntoA : Obligations.LdnNegatesTheStoreWordIntoA := by
  refine fun S s hS => ⟨exec_ldn hS, fun hne => ?negated, fun hmin => ?least⟩
  case negated =>
    have hword : cellRead s.store S ≠ BitVec.intMin 32 := fun h => hne (congrArg BitVec.toInt h)
    exact BitVec.toInt_neg_of_ne_intMin hword
  case least =>
    rw [hmin]
    exact BitVec.neg_intMin

/-- Settles O31: the store's write rules in the store, the kept store beyond it, and STO's pattern 3. -/
theorem stoCopiesAToTheStore : Obligations.StoCopiesAToTheStore := by
  refine ⟨fun S s hS => ⟨_, exec_sto hS, ?written, fun b hb => ?others, rfl⟩,
    fun W M S s hS => ⟨?raised, fun hf => ?kept⟩,
    fun S hS => ⟨encode_eq_ofNat (i := .sto S) (p := 3#3) rfl (by decide) hS,
      decode_ofNat (i := .sto S) (p := 3#3) rfl hS⟩⟩
  case written => exact cellRead_write_same s.store S s.a
  case others => exact cellRead_write_other s.store s.a hb
  case raised => exact executeOf_of_ge (by decide) hS
  case kept =>
    rw [cycleOf_of_ge (by decide) hS hf, EngineState.setFault_store, advanceCI_eq_setCI,
      EngineState.setCI_store]

end Sys2Proof.Machine

/-!
SUPPORT and proofs of the statements of spec/43_arithmetic.md: SUB (R130, R131) and the overflow policies (R132).
-/

namespace Sys2Proof.Machine

section Subtraction

variable {n : Nat}

/-! ### Subtraction -/

/-- The wrapped signed difference is the difference of the words (43_arithmetic.md R131). -/
theorem wrapInt_toInt_sub_toInt (v w : BitVec n) : wrapInt (v.toInt - w.toInt) n = v - w := by
  rw [wrapInt, sub_eq_add_neg, BitVec.ofInt_add, BitVec.ofInt_neg, BitVec.ofInt_toInt, BitVec.ofInt_toInt,
    BitVec.sub_eq_add_neg]

theorem toInt_sub_of_fits (hn : 1 ≤ n) {v w : BitVec n} (h : FitsSigned (v.toInt - w.toInt) n) :
    (v - w).toInt = v.toInt - w.toInt := by
  rw [← wrapInt_toInt_sub_toInt, wrapInt_toInt_of_fits hn h]

end Subtraction

section Saturation

variable {n : Nat} {x : Int}

/-! ### The ends of the signed range, and saturation to them (R132) -/

theorem minSigned_le_maxSigned (n : Nat) : minSigned n ≤ maxSigned n := by
  have hpos : (0 : Int) < 2 ^ (n - 1) := by positivity
  unfold minSigned maxSigned
  omega

theorem fitsSigned_minSigned (n : Nat) : FitsSigned (minSigned n) n :=
  ⟨le_rfl, minSigned_le_maxSigned n⟩

theorem fitsSigned_maxSigned (n : Nat) : FitsSigned (maxSigned n) n :=
  ⟨minSigned_le_maxSigned n, le_rfl⟩

theorem fromInt_saturate_of_gt (h : maxSigned n < x) :
    fromInt .saturate x n = .ok (wrapInt (maxSigned n) n) := by
  have hnear : ¬x < minSigned n := not_lt.2 ((minSigned_le_maxSigned n).trans h.le)
  rw [fromInt, if_neg fun hfits => hfits.2.not_gt h, if_neg hnear]

theorem fromInt_saturate_of_lt (h : x < minSigned n) :
    fromInt .saturate x n = .ok (wrapInt (minSigned n) n) := by
  rw [fromInt, if_neg fun hfits => hfits.1.not_gt h, if_pos h]

end Saturation

section OverflowInAnInstruction

variable {W : Nat} {M : MachineModel W} {S : Nat} {s : EngineState W} {e : EngineError}

/-! ### The error of `from_int` is the error of the instruction that asks for it (60_exceptions.md R155) -/

theorem executeOf_ldn_of_fromInt_error (hS : S < M.wordCount)
    (he : fromInt M.overflow (-(cellRead s.store S).toInt) W = .error e) :
    executeOf M .ldn S s = .error e := by
  rw [executeOf, doLdn_eq, if_pos hS, he, Except.map]

theorem executeOf_sub_of_fromInt_error (hS : S < M.wordCount)
    (he : fromInt M.overflow (s.a.toInt - (cellRead s.store S).toInt) W = .error e) :
    executeOf M .sub S s = .error e := by
  rw [executeOf, doSub_eq, if_pos hS, he, Except.map]

theorem executeOf_jrp_of_fromInt_error (hS : S < M.wordCount)
    (he : fromInt M.overflow ((cellRead s.store S).toInt + s.ci.toInt) W = .error e) :
    executeOf M .jrp S s = .error e := by
  rw [executeOf, doJrp_eq, if_pos hS, he, Except.map]

end OverflowInAnInstruction

section ExecuteInBaby32

variable {S : Nat} {s : State}

/-! ### The execute step of `Baby32` -/

theorem exec_sub (hS : S < 32) : exec (.sub S) s = .next ⟨s.setA (s.a - cellRead s.store S)⟩ :=
  exec_of_executes (.sub hS ((fromInt_wrap _ _).trans (congrArg _ (wrapInt_toInt_sub_toInt _ _))))

end ExecuteInBaby32

/-! ### The statements -/

/-- Settles O30: the wrapped difference is the difference of the words, and in range it is exact. -/
theorem subSubtractsTheStoreWordFromA : Obligations.SubSubtractsTheStoreWordFromA :=
  fun _ _ hS => ⟨exec_sub hS, toInt_sub_of_fits (by decide)⟩

/-- Settles O3: an instruction answers with its `from_int`, value or error; `from_int` by policy and range; and
the cycle that takes the error. -/
theorem overflowPoliciesAgreeInRange : Obligations.OverflowPoliciesAgreeInRange := by
  refine ⟨fun W M S s hS => ⟨?ldn, ?sub, ?jrp, fun hreject => ?raised⟩, fun n x hfits => ⟨?saturate, ?reject⟩,
    fun n x hn habove => ?above, fun n x hn hbelow => ?below, fun W M s m S x => cycleOf_of_executeOf_error⟩
  case ldn => exact fun v hv => executeOf_eq_ok.2 (.ldn hS hv)
  case sub => exact fun v hv => executeOf_eq_ok.2 (.sub hS hv)
  case jrp => exact fun v hv => executeOf_eq_ok.2 (.jrp hS hv)
  case raised =>
    have hraise (x : Int) (hx : ¬FitsSigned x W) : fromInt M.overflow x W = .error (.overflowError x) := by
      rw [hreject, fromInt_reject_of_not_fits hx]
    exact ⟨fun hx => executeOf_ldn_of_fromInt_error hS (hraise _ hx),
      fun hx => executeOf_sub_of_fromInt_error hS (hraise _ hx),
      fun hx => executeOf_jrp_of_fromInt_error hS (hraise _ hx)⟩
  case saturate | reject => rw [fromInt_of_fits hfits, fromInt_wrap]
  case above =>
    exact ⟨_, fromInt_saturate_of_gt habove, wrapInt_toInt_of_fits hn (fitsSigned_maxSigned n)⟩
  case below =>
    exact ⟨_, fromInt_saturate_of_lt hbelow, wrapInt_toInt_of_fits hn (fitsSigned_minSigned n)⟩

end Sys2Proof.Machine

/-!
SUPPORT and proofs of the statements of spec/44_stop_and_data.md: STP (R140).
-/

namespace Sys2Proof.Machine

section Stop

variable {S : Nat} {s t : State} {w : Word}

/-! ### The execute step of `Baby32`, the flag's one writer, and the words that stop -/

theorem exec_stp : exec (.stp S) s = .next ⟨s.setHalted true⟩ :=
  exec_of_executes .stp

/-- No step but that of an STP changes `halted`. -/
theorem nextInstr_stp_of_halted_ne (hstep : step s = .next t) (hne : t.halted ≠ s.halted) :
    ∃ S, nextInstr s = .ok (.stp S) := by
  obtain ⟨-, -, hhalted, -⟩ := onlyTheNamedInstructionsWrite s t hstep
  obtain ⟨-, hstp⟩ := hhalted hne
  exact hstp

/-- A word with the three opcode bits set is an STP, whatever its other bits (30_encoding.md R62). -/
theorem decode_stp_of_opBits (h : w &&& 0xE000#32 = 0xE000#32) :
    decode w = .ok (.stp (w.toNat % 32)) := by
  have hopcode : w.extractLsb' 13 3 = 7#3 := (and_opBits_eq_iff w 7#3).1 h
  refine decode_eq_ok.2 ⟨?opcode, ?address⟩
  case opcode =>
    rw [hopcode]
    rfl
  case address =>
    rw [extractLsb'_toNat_eq_div_mod, pow_zero, Nat.div_one]
    rfl

end Stop

/-! ### The statements -/

/-- Settles O33: STP's step halts the machine after step 1, a halted machine keeps the state, and the resume
leaves CI. -/
theorem stpHaltsTheMachine : Obligations.StpHaltsTheMachine := by
  refine ⟨fun S s => exec_stp, fun S s hrun hi => ?step, fun s t => nextInstr_stp_of_halted_ne,
    fun S hS => encode_eq_ofNat (i := .stp S) (p := 7#3) rfl (by decide) hS,
    fun w => decode_stp_of_opBits⟩
  case step =>
    have hci := advanceCI_ci_toNat Config.baby32_valid s.toEngineState
    have hresumed := nextFetch_advanceCI Config.baby32_valid s.toEngineState
    exact ⟨_, step_stp hrun hi, rfl, rfl, rfl, hci, rfl, rfl,
      step_of_kept (.inr ⟨hrun.no_fault, rfl⟩), rfl, hresumed⟩

end Sys2Proof.Machine

/-!
SUPPORT and proofs of the statements of spec/60_exceptions.md: the raise in steps 3 and 4 (R151, R152, R158,
R159), the faulted engine (R160) and the control inputs (R162).
-/

namespace Sys2Proof.Machine

section FaultedEngine

variable {W : Nat} {M : MachineModel W} {s : EngineState W} {e : EngineError}

/-! ### The answers of an engine with the fault mark set (R160), and a word with an unknown pattern (R151) -/

theorem loopOf_of_fault (hcancel : s.cancel = false) (hfault : s.fault = some e) :
    loopOf M s = .fault (.engineFaulted e) := by
  simp [loopOf, hcancel, hfault]

theorem manualStepOf_of_fault (hfault : s.fault = some e) :
    manualStepOf M s = .fault (.engineFaulted e) := by
  simp only [manualStepOf, hfault]

/-- The cycle of such a word ends in step 3, with step 1 and the fault mark alone. -/
theorem cycleOf_of_unmapped (hM : M.Valid)
    (h : M.optable.lookup ((cellRead s.store (nextFetch M s)).extractLsb' M.opStart M.opLen) = none) :
    cycleOf M s = (advanceCI M s).setFault (some (.decodeError
      (bitList ((cellRead s.store (nextFetch M s)).extractLsb' M.opStart M.opLen)))) :=
  cycleOf_of_fetchPair_error
    ((fetchPair_advanceCI hM s).trans (decodePair_of_unmapped hM hM.op_inside h))

end FaultedEngine

section FaultsAndControlInputsOfBaby32

variable {s : State} {i : Instr} {m : Mnemonic} {e : EngineError} {q : Rat}

/-! ### `Baby32`: an operand beyond the store (R152), the fault mark (R160), the control inputs (R162) -/

theorem exec_of_ge (hi : i.mnemonic = m) (hm : m ∈ [Mnemonic.jmp, .jrp, .ldn, .sto, .sub])
    (hS : 32 ≤ i.operand) : exec i s = .next ⟨s.setFault (some (.boundsError i.operand))⟩ := by
  rw [exec_eq_settle, executeOf_of_ge (hi ▸ hm) hS, settle_error]

theorem step_of_fault (hcancel : s.cancel = false) (hfault : s.fault = some e) :
    step s = .fault (.engineFaulted e) := by
  rw [step_eq_ofEngine, loopOf_of_fault hcancel hfault, ofEngine_fault]

theorem hostEvent_manualStep_of_fault (hfault : s.fault = some e) :
    hostEvent .manualStep s = .fault (.engineFaulted e) :=
  (move_eq_ofEngine (.host .manualStep) s).trans (congrArg ofEngine (manualStepOf_of_fault hfault))

theorem hostEvent_setSpeed_of_pos (hq : 0 < q) : hostEvent (.setSpeed q) s = .next ⟨s.setSpeed q⟩ :=
  ofEngine_eq_next.2 (setSpeedOf_next.2 ⟨hq, rfl⟩)

theorem hostEvent_setSpeed_of_nonpos (hq : q ≤ 0) :
    hostEvent (.setSpeed q) s = .refused .nonPositiveSpeed :=
  congrArg ofEngine (if_neg (not_lt.2 hq))

end FaultsAndControlInputsOfBaby32

/-! ### The statements -/

/-- Settles O20: the loop takes the cycle that ends in step 3, and then finds the fault mark. -/
theorem unknownPatternAbortsTheCycle : Obligations.UnknownPatternAbortsTheCycle := by
  intro W M hM s hrun hunmapped
  exact ⟨_, rfl, loopOf_next.2 (.inr ⟨hrun, (cycleOf_of_unmapped hM hunmapped).symm⟩),
    loopOf_of_fault hrun.not_cancelled rfl⟩

/-- Settles O23: of the two ways a cycle can end, the completed one sets no fault mark. -/
theorem abortedCycleLeavesOnlyStepOne : Obligations.AbortedCycleLeavesOnlyStepOne :=
  fun _ _ _ => cycleOf_of_fault

/-- Settles O22: each of the five raises `BoundsError`, which is taken in the state. -/
theorem execBeyondTheStoreSetsTheFaultMark : Obligations.ExecBeyondTheStoreSetsTheFaultMark :=
  fun _ _ hS => ⟨exec_of_ge (m := .jmp) rfl (by decide) hS, exec_of_ge (m := .jrp) rfl (by decide) hS,
    exec_of_ge (m := .ldn) rfl (by decide) hS, exec_of_ge (m := .sto) rfl (by decide) hS,
    exec_of_ge (m := .sub) rfl (by decide) hS⟩

/-- Settles O24: the loop and the manual step find the fault mark, and so does the test for the end of a run. -/
theorem faultedEngineTakesNoCycle : Obligations.FaultedEngineTakesNoCycle := by
  intro s e hfault
  refine ⟨fun hcancel => step_of_fault hcancel hfault, hostEvent_manualStep_of_fault hfault, ?_⟩
  rintro ⟨-, hnone⟩
  exact Option.some_ne_none e (hfault.symm.trans hnone)

/-- Settles O55: each write by its event, the paused machine idles, and `halted` does not reach the fetch. -/
theorem controlInputsAreWrittenAlone : Obligations.ControlInputsAreWrittenAlone := fun _ _ _ =>
  ⟨rfl, rfl, hostEvent_setSpeed_of_pos, hostEvent_setSpeed_of_nonpos,
    fun hfault => step_of_kept (.inr ⟨hfault, rfl⟩), rfl⟩

end Sys2Proof.Machine

/-!
SUPPORT and proofs of the statements of spec/70_reset_and_hazards.md: the first fetch (R182), the clears (R185,
R186), the targets of JMP and JRP (R187, R188), the residue of CI (R190) and an operand beyond the store (R193).
-/

namespace Sys2Proof.Machine

section SumsOfWords

variable {n : Nat}

/-! ### The sum of words, read unsigned, modulo the word's range -/

theorem toInt_modEq_toNat (w : BitVec n) : w.toInt ≡ w.toNat [ZMOD (2 ^ n : Nat)] := by
  rw [BitVec.toInt_eq_toNat_bmod]
  exact Int.bmod_emod

/-- A sum of two words is, modulo a divisor of `2^n`, the sum of one read signed and one read unsigned. -/
theorem toNat_add_modEq {k : Nat} (hk : k ∣ 2 ^ n) (v w : BitVec n) :
    ((v + w).toNat : Int) ≡ v.toInt + w.toNat [ZMOD k] := by
  have hsum : ((v + w).toNat : Int) ≡ v.toNat + w.toNat [ZMOD (2 ^ n : Nat)] := by
    rw [BitVec.toNat_add, Int.natCast_emod, Nat.cast_add]
    exact Int.mod_modEq _ _
  exact (hsum.trans ((toInt_modEq_toNat v).symm.add_right _)).of_dvd (Int.natCast_dvd_natCast.2 hk)

end SumsOfWords

section OperandsInTheLoader

variable {W : Nat} {M : MachineModel W} {m : Mnemonic} {S : Nat} {text : List Char}

/-! ### The assembler and the decoder keep operands inside the store (30_encoding.md R76, R65) -/

theorem parseOperand_of_parseNat (hm : m ≠ .num) (htext : parseNat text = some S) :
    parseOperand m text = some (S : Int) := by
  rw [parseOperand, if_neg hm, htext]
  rfl

/-- An address-typed operand beyond the store is turned away. -/
theorem assembleOperand_of_ge (hneeds : m ∈ M.needsOperand) (haddr : m ∈ M.addrTyped)
    (htext : parseOperand m text = some (S : Int)) (hS : M.wordCount ≤ S) :
    assembleOperand M m [text] = .error .operandNotStoreAddress := by
  have houtside : ¬(0 ≤ (S : Int) ∧ (S : Int) < M.wordCount) := by omega
  simp only [assembleOperand, if_pos hneeds, htext, if_pos (And.intro haddr houtside)]

/-- The five address bits of a word of `Baby32` name a store word. -/
theorem decode_operand_lt {w : Word} {i : Instr} (h : decode w = .ok i) :
    i.operand < Config.baby32.wordCount := by
  obtain ⟨-, haddress⟩ := decode_eq_ok.1 h
  rw [← haddress]
  exact BitVec.isLt _

end OperandsInTheLoader

section TheResidueOfCI

variable {W : Nat} {M : MachineModel W} {s t : EngineState W}

/-! ### What reads CI: step 1, and the cycle through step 1 alone (R190) -/

theorem nextCI_congr {c d : BitVec W} (h : c.toNat % M.wordCount = d.toNat % M.wordCount) :
    nextCI M c = nextCI M d :=
  congrArg (fromUnsigned · W) (Nat.ModEq.add_right 1 h)

/-- Step 1 replaces CI, so of the CI it found only the residue is left. -/
theorem advanceCI_setCI {c : BitVec W} (h : c.toNat % M.wordCount = s.ci.toNat % M.wordCount) :
    advanceCI M (s.setCI c) = advanceCI M s :=
  congrArg s.setCI (nextCI_congr h)

theorem cycleOf_congr (h : advanceCI M s = advanceCI M t) : cycleOf M s = cycleOf M t := by
  simp only [cycleOf, h]

theorem nextFetch_lt (hM : M.Valid) (s : EngineState W) : nextFetch M s < M.wordCount :=
  Nat.mod_lt _ hM.word_count

end TheResidueOfCI

section StepsAndClearsOfBaby32

variable {s t : State} {S : Nat}

/-! ### The first fetch, and the clears (R182, R185, R186) -/

theorem nextFetch_of_ci_zero {s : EngineState 32} (h : s.ci = 0#32) : nextFetch Config.baby32 s = 1 := by
  rw [nextFetch, h]
  rfl

theorem startOfRun_running (image : Memory 32) : (startOfRun image).Running := ⟨rfl, rfl, rfl⟩

theorem hostEvent_clearMemory (hfault : s.fault = none) (hhalted : s.halted = true) :
    hostEvent .clearMemory s = .next ⟨s.setStore []⟩ :=
  ofEngine_eq_next.2 (clearMemoryOf_next.2 ⟨hfault, hhalted, rfl⟩)

theorem hostEvent_clearState (hfault : s.fault = none) (hhalted : s.halted = true) :
    hostEvent .clearState s = .next ⟨(s.setCI 0#32).setA 0#32⟩ :=
  ofEngine_eq_next.2 (clearStateOf_next.2 ⟨hfault, hhalted, rfl⟩)

/-! ### The CI a transfer leaves, and the fetch after it (R187, R188) -/

/-- CI after step 1 is a store address, so its signed reading is the unsigned one. -/
theorem advanceCI_ci_toInt (s : EngineState 32) :
    (advanceCI Config.baby32 s).ci.toInt = nextFetch Config.baby32 s := by
  have hvalue := advanceCI_ci_toNat Config.baby32_valid s
  have hlt : nextFetch Config.baby32 s < 32 := nextFetch_lt Config.baby32_valid s
  rw [BitVec.toInt_eq_toNat_of_lt (by omega), hvalue]

theorem step_jmp (hrun : s.Running) (hi : nextInstr s = .ok (.jmp S)) :
    ∃ t, step s = .next t ∧ t.ci = cellRead s.store S := by
  obtain ⟨u, hu, hstep⟩ := step_of_nextInstr hrun hi
  cases hu
  exact ⟨_, hstep, rfl⟩

/-- A JRP adds to CI as step 1 reduced it. -/
theorem step_jrp (hrun : s.Running) (hi : nextInstr s = .ok (.jrp S)) :
    ∃ t, step s = .next t ∧
      t.ci = cellRead s.store S + (advanceCI Config.baby32 s.toEngineState).ci := by
  obtain ⟨u, hu, hstep⟩ := step_of_nextInstr hrun hi
  cases hu with
  | jrp hS hv =>
    rw [Config.baby32_overflow, fromInt_wrap, wrapInt_toInt_add_toInt] at hv
    cases hv
    exact ⟨_, hstep, rfl⟩

/-- The fetch from a CI that is a sum of an offset and a fetch address. -/
theorem nextFetch_of_ci_add {d : Word}
    (hci : t.ci = d + (advanceCI Config.baby32 s.toEngineState).ci) :
    (nextFetch Config.baby32 t.toEngineState : Int) =
      (nextFetch Config.baby32 s.toEngineState + d.toInt + 1) % 32 := by
  have hsum := toNat_add_modEq (k := 32) (by decide) d (advanceCI Config.baby32 s.toEngineState).ci
  rw [advanceCI_ci_toNat Config.baby32_valid, ← hci, add_comm d.toInt] at hsum
  exact (Int.natCast_emod _ _).trans (hsum.add_right 1)

end StepsAndClearsOfBaby32

/-! ### The statements -/

/-- Settles O21: the raise in step 4, the assembler's check, and the five address bits of `Baby32`. -/
theorem operandsBeyondTheStoreFault : Obligations.OperandsBeyondTheStoreFault := by
  refine ⟨fun W M s m S => cycleOf_of_ge, fun W M m text S hnum hneeds haddr htext => ?assembler,
    fun w i => decode_operand_lt⟩
  case assembler => exact assembleOperand_of_ge hneeds haddr (parseOperand_of_parseNat hnum htext)

/-- Settles O34: the next fetch is one beyond the word the JMP copied to CI. -/
theorem jmpTargetsAreOneLess : Obligations.JmpTargetsAreOneLess := by
  intro S T s hT hrun hi
  obtain ⟨t, hstep, hci⟩ := step_jmp hrun hi
  have hfetch : nextFetch Config.baby32 t.toEngineState = ((cellRead s.store S).toNat + 1) % 32 :=
    congrArg (fun c : Word => (c.toNat + 1) % 32) hci
  exact ⟨t, hstep, by omega⟩

/-- Settles O35: the wrapped sum of offset and CI, modulo `N`; the three cases are instances of it. -/
theorem jrpIsRelativeToItsOwnAddress : Obligations.JrpIsRelativeToItsOwnAddress := by
  intro S s hrun hi
  obtain ⟨t, hstep, hci⟩ := step_jrp hrun hi
  have hfetch := nextFetch_of_ci_add hci
  have hlt : nextFetch Config.baby32 s.toEngineState < 32 := nextFetch_lt Config.baby32_valid _
  exact ⟨t, hstep, hfetch, fun hd => by omega, fun hd => by omega, fun hd => by omega⟩

/-- Settles O37: the wrap of step 1 and of a skip, the CI a JMP or JRP leaves, and that a cycle reads CI
through step 1 alone. -/
theorem onlyTheResidueOfCIMatters : Obligations.OnlyTheResidueOfCIMatters := by
  refine ⟨fun s hci => ?wraps, fun S s hrun hi ha => ?skip, fun S s => step_jmp,
    fun S s hrun hi hfits => ?relative, fun s c hrun hc => ?residue⟩
  case wraps => rw [nextFetch, hci, Config.baby32_wordCount]
  case skip =>
    obtain ⟨-, hcmp, -⟩ := cmpSkipsWhenAIsNegative
    obtain ⟨t, hstep, -, hfetch⟩ := hcmp S s hrun hi
    rw [if_pos ha] at hfetch
    exact ⟨t, hstep, fun h30 => by omega, fun h31 => by omega⟩
  case relative =>
    obtain ⟨t, hstep, hci⟩ := step_jrp hrun hi
    rw [← advanceCI_ci_toInt] at hfits ⊢
    exact ⟨t, hstep, (congrArg BitVec.toInt hci).trans (toInt_add_of_fits (by decide) hfits)⟩
  case residue =>
    have hmoved : (State.mk (s.setCI c)).Running := ⟨hrun.not_cancelled, hrun.no_fault, hrun.not_halted⟩
    rw [step_of_running hrun, step_of_running hmoved, cycleOf_congr (advanceCI_setCI hc)]

/-- Settles O53: each clear admitted while halted writes its own items. -/
theorem clearsTouchOnlyTheirOwn : Obligations.ClearsTouchOnlyTheirOwn := fun _ hfault hhalted =>
  ⟨⟨_, hostEvent_clearMemory hfault hhalted, cellRead_nil, rfl⟩,
    ⟨_, hostEvent_clearState hfault hhalted, rfl, nextFetch_of_ci_zero rfl⟩⟩

/-- Settles O56: the run starts with CI at zero, so step 1 of its first cycle gives 1. -/
theorem theEntryPointIsAddressOne : Obligations.TheEntryPointIsAddressOne := by
  intro image
  have hfetch : nextFetch Config.baby32 (startOfRun image).toEngineState = 1 := nextFetch_of_ci_zero rfl
  refine ⟨startOfRun_running image, ?fetched, ?ci⟩
  case fetched =>
    rw [nextInstr, hfetch]
    rfl
  case ci => exact BitVec.eq_of_toNat_eq ((beginCycle_ci_toNat _).trans hfetch)

end Sys2Proof.Machine
